-- ==== Sys2Proof/Word.lean ====
section
/-! DEFINITION. The words of the block: bytes, table entries, packed indices, bit vectors, and the constants of R14. -/

namespace Sys2Proof

/-- A sample, a message byte or a recovered byte (R59, R65). -/
abbrev Byte := BitVec 8

/-- A table entry: a BitVector7 held as a 7-bit integer (R60). -/
abbrev Entry := BitVec 7

/-- The class index `u` (R61). -/
abbrev ClassIndex := BitVec 4

/-- The target value `v` (R62). -/
abbrev TargetValue := BitVec 3

/-- `GROUP`: samples per group, bits per BitVector7, columns of `H` (R14). -/
abbrev group : Nat := 7

/-- `SYN_W`: rows of `H`, bits of a syndrome (R14). -/
abbrev synWidth : Nat := 3

/-- `CLS_W`: bits of `u` (R14). -/
abbrev clsWidth : Nat := 4

/-- `N_CLASS`: rows of `TAB` (R14). -/
abbrev nClass : Nat := 16

/-- `N_TARGET`: columns of `TAB` (R14). -/
abbrev nTarget : Nat := 8

/-- `N_VEC`: number of BitVector7 values, and of `TAB` cells (R14, R37). -/
abbrev nVec : Nat := 128

/-- `ASCII_LIMIT`: a message byte must be below this (R14). -/
abbrev asciiLimit : Nat := 128

/-- `POS_U`: positions packed into `u`, most significant first (R14). -/
def posU : List Nat := [2, 4, 5, 6]

/-- `POS_V`: positions packed into `v`, most significant first (R14). -/
def posV : List Nat := [0, 1, 3]

/-- A BitVector7: an ordered sequence of exactly 7 bits, positions 0 to 6 (R16). -/
structure BitVector7 where
  b0 : Bool
  b1 : Bool
  b2 : Bool
  b3 : Bool
  b4 : Bool
  b5 : Bool
  b6 : Bool
  deriving DecidableEq, Repr, Inhabited

/-- Position `k` of a BitVector7; positions beyond 6 do not exist and read as false. -/
def BitVector7.pos (w : BitVector7) (k : Nat) : Bool :=
  match k with
  | 0 => w.b0
  | 1 => w.b1
  | 2 => w.b2
  | 3 => w.b3
  | 4 => w.b4
  | 5 => w.b5
  | 6 => w.b6
  | _ => false

/-- A vector of three bits: a syndrome `(s[0], s[1], s[2])` (R63). -/
structure BitVector3 where
  s0 : Bool
  s1 : Bool
  s2 : Bool
  deriving DecidableEq, Repr, Inhabited

/-- Addition of 3-element vectors over GF(2), element by element (R18). -/
def BitVector3.add (s t : BitVector3) : BitVector3 :=
  ⟨s.s0 ^^ t.s0, s.s1 ^^ t.s1, s.s2 ^^ t.s2⟩

/-- Addition of 7-element vectors over GF(2), element by element (R18). -/
def BitVector7.add (a b : BitVector7) : BitVector7 :=
  ⟨a.b0 ^^ b.b0, a.b1 ^^ b.b1, a.b2 ^^ b.b2, a.b3 ^^ b.b3, a.b4 ^^ b.b4, a.b5 ^^ b.b5,
    a.b6 ^^ b.b6⟩

end Sys2Proof
end

