-- ==== Sys2Proof/Config.lean ====
section
/-! DEFINITION. What an implementation fixes: the matrix `H` with its well-formedness, `LAZY_BUILD`, `LEN_W`; and the free values. -/

namespace Sys2Proof

/-- A 3×7 matrix of bits: row `r` gives `s[r]`, column `c` multiplies position `c` (R10, R66). -/
structure ParityMatrix where
  row0 : BitVector7
  row1 : BitVector7
  row2 : BitVector7
  deriving DecidableEq, Repr, Inhabited

/-- The bit `H[r][c]` (R10); a row or column that does not exist reads as false. -/
def ParityMatrix.bit (m : ParityMatrix) (r c : Nat) : Bool :=
  match r with
  | 0 => m.row0.pos c
  | 1 => m.row1.pos c
  | 2 => m.row2.pos c
  | _ => false

/-- The determinant over GF(2) of columns 0, 1 and 3, in that order (R11). -/
def ParityMatrix.det (m : ParityMatrix) : Bool :=
  (m.row0.b0 && ((m.row1.b1 && m.row2.b3) ^^ (m.row1.b3 && m.row2.b1))) ^^
  (m.row0.b1 && ((m.row1.b0 && m.row2.b3) ^^ (m.row1.b3 && m.row2.b0))) ^^
  (m.row0.b3 && ((m.row1.b0 && m.row2.b1) ^^ (m.row1.b1 && m.row2.b0)))

/-- `WF(H)`: the matrix of columns 0, 1, 3 is invertible over GF(2) (R11). -/
def ParityMatrix.wf (m : ParityMatrix) : Bool := m.det

/-- A well-formed matrix: the matrix with its proof of `WF(H)`. A configuration whose `H` is not well formed is not a
configuration of this hardware (R11, R89), so no value of this type is one. The default values serve only to show that
the type has a member; no definition uses them. -/
structure WfMatrix where
  mat : ParityMatrix :=
    ⟨⟨true, false, false, false, false, false, false⟩,
      ⟨false, true, false, false, false, false, false⟩,
      ⟨false, false, false, true, false, false, false⟩⟩
  wf : mat.wf = true := by decide
  deriving DecidableEq, Repr, Inhabited

/-- The configuration of one block: its parameters, constant while it runs (R10, R12, R13). -/
structure Config where
  /-- The parity-check matrix `H` (R21). -/
  h : WfMatrix
  /-- `LAZY_BUILD` (R13). -/
  lazyBuild : Bool
  /-- `LEN_W`, the width of the length registers; `none` is the unbounded width R12 allows. -/
  lenW : Option Nat
  deriving DecidableEq, Repr

/-- Whether a length is representable in the length registers (R12). -/
def Config.fits (c : Config) (n : Nat) : Bool :=
  match c.lenW with
  | none => true
  | some w => decide (n < 2 ^ w)

/-- The 21 bits of the real block's `H`: a free constant, of which only `WF(H)` is known (R10, U1). DESIGN CHOICE, log 1. -/
opaque Config.parityMatrix : WfMatrix

/-- What a never-written cell of `CAR` holds after reset number `draw`: unspecified (R46, U9). DESIGN CHOICE, log 4. -/
opaque Config.freeSample : (draw index : Nat) → Byte

/-- What a never-written cell of `MSG` holds: unspecified (R46, U9). DESIGN CHOICE, log 4. -/
opaque Config.freeMessageByte : (draw index : Nat) → Byte

/-- What a never-written cell of `OUT` holds: unspecified (R40, U9). DESIGN CHOICE, log 4. -/
opaque Config.freeOutByte : (draw index : Nat) → Byte

/-- What an entry of `TAB` holds before BUILD writes it: unspecified (R36, U3). DESIGN CHOICE, log 4. -/
opaque Config.freeEntry : (draw index : Nat) → Entry

/-- The configuration `State.reset` starts with: `H` free (log 1), `LAZY_BUILD` at R13's default false (log 2), the
lengths unbounded as R12 allows (log 3). -/
def Config.modelled : Config := { h := Config.parityMatrix, lazyBuild := false, lenW := none }

end Sys2Proof
end

