-- ==== Sys2Proof/Syntax.lean ====
section
/-! DEFINITION. The instructions: the four operations of the opcode table, without operands (R67, R68). -/

namespace Sys2Proof

/-- The operations of the block, one constructor per row of the opcode table (R68). -/
inductive Instr where
  /-- `BUILD`, op 00 (R85). -/
  | build
  /-- `ENCODE`, op 01 (R92). -/
  | encode
  /-- `DECODE`, op 10 (R101). -/
  | decode
  /-- `CAPACITY`, op 11 (R108). -/
  | capacity
  deriving DecidableEq, Repr

end Sys2Proof
end

