-- ==== Sys2Proof/WellFormed.lean ====
section
/-! DEFINITION. Well-formedness: every command is well formed, a command word is below 4, and a configuration needs `WF(H)`. -/

namespace Sys2Proof

/-- Every operation is well formed: the command has no operand field and no reserved value (R67, R70). -/
def Instr.wf (i : Instr) : Bool :=
  match i with
  | .build => true
  | .encode => true
  | .decode => true
  | .capacity => true

/-- A command word is a 2-bit value (R67). -/
def commandWordOk (w : Nat) : Bool := decide (w < 4)

/-- Accepts a matrix as the configuration's `H` when `WF(H)` holds and refuses it otherwise (R11, R89). -/
def admitMatrix (m : ParityMatrix) : Option WfMatrix :=
  if h : m.wf = true then some ⟨m, h⟩ else none

end Sys2Proof
end

