-- ==== Sys2Proof/Decode.lean ====
section
/-! DEFINITION. The command word: decoder, encoder, and the host's view of the opcode table. -/

namespace Sys2Proof

/-- Why a command word is rejected. -/
inductive DecodeError where
  /-- The number written to `CMD` is no 2-bit value (R67). -/
  | notTwoBits (w : Nat)
  deriving DecidableEq, Repr

/-- The operation that a command word starts (R68); a number of more than 2 bits is no command word. -/
def decode (w : Nat) : Except DecodeError Instr :=
  match w with
  | 0 => .ok .build
  | 1 => .ok .encode
  | 2 => .ok .decode
  | 3 => .ok .capacity
  | _ => .error (.notTwoBits w)

/-- The command word of an operation, the field `op` of `CMD` (R67, R68). -/
def encode (i : Instr) : BitVec 2 :=
  match i with
  | .build => 0b00#2
  | .encode => 0b01#2
  | .decode => 0b10#2
  | .capacity => 0b11#2

/-- The command word as the number the host writes to `CMD`. -/
def encodeWord (i : Instr) : Nat := (encode i).toNat

/-- The decoder on an opcode-table word: the one word of the block is the number written to `CMD`, so there are no
later words and no byte order (R43, R71). -/
def decodeTableWord (_nbits w : Nat) : Option Instr :=
  match decode w with
  | .ok i => some i
  | .error _ => none

end Sys2Proof
end

