-- ==== Sys2Proof/Machine/State.lean ====
section
/-! DEFINITION. The state of the block (R20), the host's actions, the reasons for a stop, and reset (R36). -/

namespace Sys2Proof.Machine

/-- A sparse space: pairs of index and content, indices strictly rising; an index not listed has never been written. -/
abbrev Cells (α : Type) := List (Nat × α)

/-- A byte space (`CAR`, `MSG`, `OUT`), a list of the host's cells. -/
abbrev Memory := List Host.Cell

/-- The index spaces (R37). -/
inductive Space where
  /-- The carrier (R38). -/
  | car
  /-- The message (R39). -/
  | msg
  /-- The decoder's result (R40). -/
  | out
  /-- The table (R41). -/
  | tab
  /-- The constant matrix (R42). -/
  | hrom
  deriving DecidableEq, Repr

/-- The named registers (R25). -/
inductive RegName where
  /-- Register 0, write-only, stores nothing (R26). -/
  | cmd
  /-- Register 1 (R27). -/
  | status
  /-- Register 2 (R28). -/
  | sampleCount
  /-- Register 3 (R29). -/
  | msgLen
  /-- Register 4 (R30). -/
  | result
  /-- Register 5 (R31). -/
  | outLen
  /-- Register 6 (R23). -/
  | tableValid
  deriving DecidableEq, Repr

/-- The outcomes `STATUS` holds: five values, since codes 5, 6 and 7 are never produced (R27, R69, U6). -/
inductive Status where
  /-- Code 0. -/
  | ok
  /-- Code 1 (R112). -/
  | invalidInput
  /-- Code 2 (R113). -/
  | insufficientCarrier
  /-- Code 3 (R114). -/
  | noTable
  /-- Code 4 (R115). -/
  | overrun
  deriving DecidableEq, Repr

/-- The failures an operation can raise (R111). -/
inductive Failure where
  /-- The four conditions of R93; which one held is not recorded (R111). -/
  | invalidInput
  /-- DECODE on a carrier shorter than `7 * MSG_LEN` (R102). -/
  | insufficientCarrier
  /-- ENCODE without a table and without lazy building (R95). -/
  | noTable
  /-- ENCODE whose message needs more samples than the carrier has (R94). -/
  | overrun
  deriving DecidableEq, Repr

/-- What the host can do between two operations (R8, R25, R37, R72). -/
inductive HostAction where
  /-- A write to a register; a write to `CMD` starts an operation (R26). -/
  | writeReg (r : RegName) (v : Nat)
  /-- A read of a register. -/
  | readReg (r : RegName)
  /-- A write to one cell. -/
  | writeCell (sp : Space) (a : Nat) (v : Byte)
  /-- A read of one cell. -/
  | readCell (sp : Space) (a : Nat)
  /-- Reset of the block (R125). -/
  | reset
  deriving DecidableEq, Repr

/-- Reasons to stop with a fault: none. Every failure the spec names is an outcome reported in `STATUS`, after which the
block is ready for the next command (R116, R119), and every operation completes (R136). -/
inductive Fault
  deriving DecidableEq, Repr

/-- Host actions without a meaning; no operation is ever refused. -/
inductive Refusal where
  /-- An instruction without a meaning yet; raised by no arm of `exec`. Safe. -/
  | notModelled (mnemonic : String)
  /-- Raised by the command fetch: a number written to `CMD` that is no 2-bit value (R67, log 7). Safe. -/
  | commandTooWide (w : Nat)
  /-- Raised by a host write to `STATUS`, `RESULT`, `OUT_LEN` or `TABLE_VALID` (R25, U7). Safe. -/
  | readOnlyRegister (r : RegName)
  /-- Raised by a host read of `CMD` (R25, U7). Safe. -/
  | writeOnlyRegister
  /-- Raised by a host write of a length that `LEN_W` bits do not hold (R12, U12). Safe. -/
  | lengthTooWide (v : Nat)
  /-- Raised by a host write to a space the host does not write: `OUT`, `TAB`, `HROM` (R37, U7, log 9). Safe. -/
  | readOnlySpace (sp : Space)
  /-- Raised by a host read of a space the host does not read: `MSG` (R37, log 9). Safe. -/
  | unreadableSpace (sp : Space)
  /-- Raised by a host access to a cell that does not exist (R46, U8). Safe. -/
  | noSuchCell (sp : Space) (a : Nat)
  deriving DecidableEq, Repr

/-- The state: everything R20 lists, and the model's own `pending` and `draw`. -/
structure State where
  /-- The parameters `H`, `LAZY_BUILD`, `LEN_W`: constant, kept by every step (R10, R12, R13, R21). -/
  config : Config
  /-- `TAB`, entry `TAB[u][v]` at index `8*u+v` (R22, R41). -/
  tab : Cells Entry
  /-- `TABLE_VALID` (R23). -/
  tableValid : Bool
  /-- `CAR` (R38). -/
  car : Memory
  /-- `MSG` (R39). -/
  msg : Memory
  /-- `OUT` (R40). -/
  out : Memory
  /-- `SAMPLE_COUNT` (R28). -/
  sampleCount : Nat
  /-- `MSG_LEN` (R29). -/
  msgLen : Nat
  /-- `RESULT` (R30). -/
  result : Nat
  /-- `OUT_LEN` (R31). -/
  outLen : Nat
  /-- `STATUS` (R27). -/
  status : Status
  /-- The model's own: the host's actions to come, oldest first (R8, R53; log 6). -/
  pending : List HostAction
  /-- The model's own: the number of resets so far, which selects the free values of never-written cells (log 4). -/
  draw : Nat
  deriving DecidableEq, Repr

/-- A block of configuration `c` right after reset number `n`, with the host's actions `acts` to come (R36). -/
def State.afterReset (c : Config) (n : Nat) (acts : List HostAction) : State :=
  { config := c, tab := [], tableValid := false, car := [], msg := [], out := [], sampleCount := 0, msgLen := 0,
    result := 0, outLen := 0, status := .ok, pending := acts, draw := n }

/-- The machine right after reset (R36), with no host action yet. -/
def State.reset : State := State.afterReset Config.modelled 0 []

end Sys2Proof.Machine
end

