-- ==== Sys2Proof/Machine/BitField.lean ====
section
/-! DEFINITION. The bit-field extractor and packer: the pure functions of 40_bitfield.md, R74 to R84. -/

namespace Sys2Proof.Machine

/-- A bit as a word of `n` bits, in bit 0. -/
def bitWord (n : Nat) (b : Bool) : BitVec n := BitVec.ofNat n b.toNat

/-- `BITS7(x)`: bits 0 to 6 of a number, position `k` being bit `k` (R74). -/
def bits7 (x : Nat) : BitVector7 :=
  ⟨x.testBit 0, x.testBit 1, x.testBit 2, x.testBit 3, x.testBit 4, x.testBit 5, x.testBit 6⟩

/-- `PACK7(w)`: the integer of a BitVector7 (R75). -/
def pack7 (w : BitVector7) : Nat :=
  w.b0.toNat + 2 * w.b1.toNat + 4 * w.b2.toNat + 8 * w.b3.toNat + 16 * w.b4.toNat + 32 * w.b5.toNat +
    64 * w.b6.toNat

/-- `CLASSIDX(w)`: positions 2, 4, 5, 6, position 2 most significant (R76). -/
def classIdx (w : BitVector7) : ClassIndex :=
  (bitWord 4 w.b2 <<< 3) ||| (bitWord 4 w.b4 <<< 2) ||| (bitWord 4 w.b5 <<< 1) ||| bitWord 4 w.b6

/-- `UBITS(u)`: the bits `(d2, d4, d5, d6)` that a class index fixes (R77). -/
def ubits (u : ClassIndex) : Bool × Bool × Bool × Bool :=
  (u.getLsbD 3, u.getLsbD 2, u.getLsbD 1, u.getLsbD 0)

/-- `PACKV(t)`: three bits, element 0 most significant (R80). -/
def packV (t : BitVector3) : TargetValue :=
  (bitWord 3 t.s0 <<< 2) ||| (bitWord 3 t.s1 <<< 1) ||| bitWord 3 t.s2

/-- `VBITS(v)`: the inverse of `PACKV` (R80). -/
def vbits (v : TargetValue) : BitVector3 := ⟨v.getLsbD 2, v.getLsbD 1, v.getLsbD 0⟩

/-- `TARGET(w)`: positions 0, 1, 3 of a message byte's bits, position 0 most significant (R78). -/
def target (w : BitVector7) : TargetValue :=
  (bitWord 3 w.b0 <<< 2) ||| (bitWord 3 w.b1 <<< 1) ||| bitWord 3 w.b3

/-- The product over GF(2) of one row of `H` with a vector (R18, R79). -/
def rowParity (row w : BitVector7) : Bool :=
  (row.b0 && w.b0) ^^ (row.b1 && w.b1) ^^ (row.b2 && w.b2) ^^ (row.b3 && w.b3) ^^ (row.b4 && w.b4) ^^
    (row.b5 && w.b5) ^^ (row.b6 && w.b6)

/-- `SYNDROME(w)`: `H · w` over GF(2) (R79). -/
def syndrome (m : ParityMatrix) (w : BitVector7) : BitVector3 :=
  ⟨rowParity m.row0 w, rowParity m.row1 w, rowParity m.row2 w⟩

/-- `LSB(b)`: bit 0 of a sample (R81). -/
def lsb (b : Byte) : Bool := (b &&& 1#8) == 1#8

/-- `LSBMERGE(b, x)`: a sample with its LSB replaced (R82). -/
def lsbMerge (b : Byte) (x : Bool) : Byte := (b &&& 0xFE#8) ||| bitWord 8 x

/-- `ASSEMBLE(r, s)`: the bits of a recovered byte from the 7 LSBs read and their syndrome (R83). -/
def assemble (r : BitVector7) (s : BitVector3) : BitVector7 :=
  ⟨s.s0, s.s1, r.b2, s.s2, r.b4, r.b5, r.b6⟩

/-- `DECBYTE(r)`: the number decoded from one group (R84 item 3). -/
def decByte (m : ParityMatrix) (r : BitVector7) : Nat := pack7 (assemble r (syndrome m r))

/-- The cell of `TAB` that holds `Table[u][v]`: index `8*u + v` (R64). -/
def tableIndex (u : ClassIndex) (v : TargetValue) : Nat := nTarget * u.toNat + v.toNat

/-- The bit of `HROM` at index `7*r + c` is `H[r][c]` (R42, R66). -/
def hromBit (m : ParityMatrix) (a : Nat) : Bool := m.bit (a / group) (a % group)

end Sys2Proof.Machine
end

