-- ==== Sys2Proof/Machine/Flags.lean ====
section
/-! DEFINITION. The outcome field of `STATUS` and the codes of failures; the block has no arithmetic flags (R33). -/

namespace Sys2Proof.Machine

/-- The 3-bit value of `STATUS` (R27, R69). -/
def Status.code (st : Status) : BitVec 3 :=
  match st with
  | .ok => 0#3
  | .invalidInput => 1#3
  | .insufficientCarrier => 2#3
  | .noTable => 3#3
  | .overrun => 4#3

/-- The outcome a failure leaves in `STATUS` (R111). -/
def Failure.status (e : Failure) : Status :=
  match e with
  | .invalidInput => .invalidInput
  | .insufficientCarrier => .insufficientCarrier
  | .noTable => .noTable
  | .overrun => .overrun

/-- The identification number of a register (R25). -/
def RegName.number (r : RegName) : Nat :=
  match r with
  | .cmd => 0
  | .status => 1
  | .sampleCount => 2
  | .msgLen => 3
  | .result => 4
  | .outLen => 5
  | .tableValid => 6

end Sys2Proof.Machine
end

