-- ==== Sys2Proof/Machine/Ops.lean ====
section
/-! DEFINITION. The shared operations over spaces and registers, and failure entry (R116). -/

namespace Sys2Proof.Machine

/-- The content of a cell, `none` where nothing has been written. -/
def Cells.read? {α : Type} (m : Cells α) (a : Nat) : Option α :=
  match m with
  | [] => none
  | (b, v) :: rest => if a < b then none else if a = b then some v else Cells.read? rest a

/-- Rewrites one cell from its present content (`none` where nothing has been written), keeping the canonical form. -/
def Cells.modify {α : Type} (f : Option α → α) (a : Nat) (m : Cells α) : Cells α :=
  match m with
  | [] => [(a, f none)]
  | (b, v) :: rest =>
    if a < b then (a, f none) :: (b, v) :: rest
    else if a = b then (a, f (some v)) :: rest
    else (b, v) :: Cells.modify f a rest

/-- Writes one cell (`MemWrite`, R19, R43). -/
def Cells.write {α : Type} (m : Cells α) (a : Nat) (v : α) : Cells α := Cells.modify (fun _ => v) a m

/-- The canonical form: indices strictly rising, so that each is listed at most once. -/
def Cells.wf {α : Type} (m : Cells α) : Bool :=
  match m with
  | [] => true
  | (a, _) :: rest => rest.all (fun c => decide (a < c.1)) && Cells.wf rest

/-- The canonical form of a byte space. -/
abbrev Memory.wf (m : Memory) : Bool := Cells.wf m

/-- `CAR:a`, the sample `a`: the byte last written, a free value where none was (R38, R46). -/
def State.sample (s : State) (a : Nat) : Byte := (Cells.read? s.car a).getD (Config.freeSample s.draw a)

/-- `MSG:i` (R39, R46). -/
def State.messageByte (s : State) (i : Nat) : Byte :=
  (Cells.read? s.msg i).getD (Config.freeMessageByte s.draw i)

/-- `OUT:i` (R40, R46). -/
def State.outByte (s : State) (i : Nat) : Byte := (Cells.read? s.out i).getD (Config.freeOutByte s.draw i)

/-- `TAB:a` (R41, R46). -/
def State.entry (s : State) (a : Nat) : Entry := (Cells.read? s.tab a).getD (Config.freeEntry s.draw a)

/-- `Table[u][v]` as a vector (R19, R22). -/
def State.tableVector (s : State) (u : ClassIndex) (v : TargetValue) : BitVector7 :=
  bits7 (s.entry (tableIndex u v)).toNat

/-- Write of `STATUS`. -/
def State.withStatus (s : State) (st : Status) : State := { s with status := st }

/-- Write of `TABLE_VALID`. -/
def State.withTableValid (s : State) (b : Bool) : State := { s with tableValid := b }

/-- Write of `SAMPLE_COUNT`. -/
def State.withSampleCount (s : State) (n : Nat) : State := { s with sampleCount := n }

/-- Write of `MSG_LEN`. -/
def State.withMsgLen (s : State) (n : Nat) : State := { s with msgLen := n }

/-- Write of `RESULT`. -/
def State.withResult (s : State) (n : Nat) : State := { s with result := n }

/-- Write of `OUT_LEN`. -/
def State.withOutLen (s : State) (n : Nat) : State := { s with outLen := n }

/-- Replaces the contents of `TAB`. -/
def State.withTab (s : State) (t : Cells Entry) : State := { s with tab := t }

/-- Replaces the contents of `CAR`. -/
def State.withCar (s : State) (m : Memory) : State := { s with car := m }

/-- Replaces the contents of `MSG`. -/
def State.withMsg (s : State) (m : Memory) : State := { s with msg := m }

/-- Replaces the contents of `OUT`. -/
def State.withOut (s : State) (m : Memory) : State := { s with out := m }

/-- Replaces the host's actions to come. -/
def State.withPending (s : State) (acts : List HostAction) : State := { s with pending := acts }

/-- Failure entry, the meaning of `raise E`: `STATUS` takes the failure's code and nothing else changes. There is no
handler, no saved state, no mode, and no return from a failure (R116, R119). -/
def raiseFailure (e : Failure) (s : State) : State := s.withStatus e.status

/-- The end of an operation that does not fail: `STATUS <- OK` (R117). -/
def succeed (s : State) : State := s.withStatus .ok

/-- Ends an operation: with its failure if a check found one, else with its result (R116, R117). -/
def finish (failure : Option Failure) (s result : State) : State :=
  match failure with
  | some e => raiseFailure e s
  | none => succeed result

end Sys2Proof.Machine
end

