-- ==== Sys2Proof/Machine/Operands.lean ====
section
/-! DEFINITION. The operands of the operations: capacity, group addressing, the checks of ENCODE and DECODE. -/

namespace Sys2Proof.Machine

/-- `max(1, n) - 1` (R108, R110 item 1). -/
def capacityOf (n : Nat) : Nat := max 1 n - 1

/-- `7 * L`, the samples that `L` message bytes occupy (R110 item 2). -/
def samplesFor (l : Nat) : Nat := group * l

/-- The sample at relative position `k` of group `i`: `7*i + k` (R45). -/
def sampleIndex (i k : Nat) : Nat := group * i + k

/-- The 7 LSBs of group `i` of the carrier, `r[k] = LSB(CAR:7*i+k)` (R45, R103). -/
def State.groupLsbs (s : State) (i : Nat) : BitVector7 :=
  ⟨lsb (s.sample (sampleIndex i 0)), lsb (s.sample (sampleIndex i 1)), lsb (s.sample (sampleIndex i 2)),
    lsb (s.sample (sampleIndex i 3)), lsb (s.sample (sampleIndex i 4)), lsb (s.sample (sampleIndex i 5)),
    lsb (s.sample (sampleIndex i 6))⟩

/-- The bits of message byte `i` (R59, R74). -/
def State.messageBits (s : State) (i : Nat) : BitVector7 := bits7 (s.messageByte i).toNat

/-- Every byte of the message is below 128 (R93 condition 4). -/
def State.messageIsAscii (s : State) : Bool :=
  (List.range s.msgLen).all (fun i => decide ((s.messageByte i).toNat < asciiLimit))

/-- The source's validation: true when one of the four conditions of R93 holds. -/
def State.inputInvalid (s : State) : Bool :=
  s.sampleCount == 0 || s.msgLen == 0 || decide (capacityOf s.sampleCount < s.msgLen) || !s.messageIsAscii

/-- The checks of ENCODE in their order: `InvalidInput`, `Overrun`, `NoTable` (R92, R93, R94, R95, R118). -/
def State.encodeFailure (s : State) : Option Failure :=
  if s.inputInvalid then some .invalidInput
  else if s.sampleCount < samplesFor s.msgLen then some .overrun
  else if !s.tableValid && !s.config.lazyBuild then some .noTable
  else none

/-- The check of DECODE (R102). -/
def State.decodeFailure (s : State) : Option Failure :=
  if s.sampleCount < samplesFor s.msgLen then some .insufficientCarrier else none

end Sys2Proof.Machine
end

