-- ==== Sys2Proof/Machine/Capacity.lean ====
section
/-! DEFINITION. CAPACITY: R108, R109. -/

namespace Sys2Proof.Machine

/-- `CAPACITY` (R108): `RESULT <- max(1, SAMPLE_COUNT) - 1`. It cannot fail. -/
def execCapacity (s : State) : Host.Outcome State Fault Refusal :=
  .next (succeed (s.withResult (capacityOf s.sampleCount)))

end Sys2Proof.Machine
end

