-- ==== Sys2Proof/Machine/DecodeMessage.lean ====
section
/-! DEFINITION. DECODE, the syndrome decoder: R101 to R107. -/

namespace Sys2Proof.Machine

/-- The byte recovered from group `i` (R103). -/
def State.recoveredByte (s : State) (i : Nat) : Byte := BitVec.ofNat 8 (decByte s.config.h.mat (s.groupLsbs i))

/-- `OUT` once bytes `0 .. n-1` have been recovered, in that order (R101, R103). -/
def decodedOut (s : State) (n : Nat) : Memory :=
  match n with
  | 0 => s.out
  | i + 1 => Cells.write (decodedOut s i) i (s.recoveredByte i)

/-- The transform of DECODE, with `OUT_LEN <- MSG_LEN` (R101). -/
def decodeTransform (s : State) : State := (s.withOut (decodedOut s s.msgLen)).withOutLen s.msgLen

/-- `DECODE` (R101): the check, then the transform. It reads neither `TAB` nor `TABLE_VALID` (R107). -/
def execDecode (s : State) : Host.Outcome State Fault Refusal :=
  .next (finish s.decodeFailure s (decodeTransform s))

end Sys2Proof.Machine
end

