-- ==== Sys2Proof/Machine/BuildTable.lean ====
section
/-! DEFINITION. BUILD, the lookup-table generator: R85 to R91. -/

namespace Sys2Proof.Machine

/-- The cell of `TAB` that candidate `i` is filed under: its class index and its packed syndrome (R86). -/
def candidateIndex (h : WfMatrix) (i : Nat) : Nat :=
  tableIndex (classIdx (bits7 i)) (packV (syndrome h.mat (bits7 i)))

/-- The loop of R86: files the candidates `0 .. n-1` in turn, each as the integer it came from. -/
def fileCandidates (h : WfMatrix) (n : Nat) (t : Cells Entry) : Cells Entry :=
  match n with
  | 0 => t
  | i + 1 => Cells.write (fileCandidates h i t) (candidateIndex h i) (BitVec.ofNat 7 i)

/-- The contents of `TAB` once BUILD has filed the 128 candidates, `TAB` having held nothing before (R24, R86). -/
def builtTable (h : WfMatrix) : Cells Entry := fileCandidates h nVec []

/-- The algorithm of R86, which BUILD performs and a lazy ENCODE performs first (R95). -/
def buildTable (s : State) : State :=
  succeed ((s.withTab (fileCandidates s.config.h nVec s.tab)).withTableValid true)

/-- `BUILD` (R85). It cannot fail. -/
def execBuild (s : State) : Host.Outcome State Fault Refusal := .next (buildTable s)

end Sys2Proof.Machine
end

