-- ==== Sys2Proof/Machine/EncodeMessage.lean ====
section
/-! DEFINITION. ENCODE, the syndrome encoder: R92 to R100. -/

namespace Sys2Proof.Machine

/-- The read-modify-write of one sample: its LSB becomes `x`, bits 7 to 1 stay (R47, R96). -/
def mergeSample (draw a : Nat) (x : Bool) (m : Memory) : Memory :=
  Cells.modify (fun b => lsbMerge (b.getD (Config.freeSample draw a)) x) a m

/-- Position `k` of the replacement goes to the sample at relative position `k` of group `i` (R96 step 5). -/
def writeGroup (draw i : Nat) (w : BitVector7) (m : Memory) : Memory :=
  [0, 1, 2, 3, 4, 5, 6].foldl (fun m k => mergeSample draw (sampleIndex i k) (w.pos k) m) m

/-- The table entry chosen for message byte `i` (R96 steps 1 to 4). -/
def State.replacement (s : State) (i : Nat) : BitVector7 :=
  s.tableVector (classIdx (s.messageBits i)) (target (s.messageBits i))

/-- The carrier once message bytes `0 .. n-1` have been merged in, in that order (R92, R96). -/
def encodedCarrier (s : State) (n : Nat) : Memory :=
  match n with
  | 0 => s.car
  | i + 1 => writeGroup s.draw i (s.replacement i) (encodedCarrier s i)

/-- The transform of ENCODE over the whole message (R96). -/
def encodeTransform (s : State) : State := s.withCar (encodedCarrier s s.msgLen)

/-- The table that ENCODE reads: as it is if valid, else built first (R95). -/
def ensureTable (s : State) : State := if s.tableValid then s else buildTable s

/-- `ENCODE` (R92): the checks, then the table, then the transform. -/
def execEncode (s : State) : Host.Outcome State Fault Refusal :=
  .next (finish s.encodeFailure s (encodeTransform (ensureTable s)))

end Sys2Proof.Machine
end

