-- ==== Sys2Proof/Machine/Bus.lean ====
section
/-! DEFINITION. The host's accesses and reset: R25, R37, R46, R49, R125. -/

namespace Sys2Proof.Machine

/-- Host write of a register other than `CMD`: only the two length registers take one, and only a length that `LEN_W`
bits hold (R12, R25, U7, U12). It changes no cell of any space (R46). -/
def hostWriteReg (r : RegName) (v : Nat) (s : State) : Host.Outcome State Fault Refusal :=
  match r with
  | .sampleCount => if s.config.fits v then .next (s.withSampleCount v) else .refused (.lengthTooWide v)
  | .msgLen => if s.config.fits v then .next (s.withMsgLen v) else .refused (.lengthTooWide v)
  | .cmd => .refused (.commandTooWide v)
  | .status => .refused (.readOnlyRegister .status)
  | .result => .refused (.readOnlyRegister .result)
  | .outLen => .refused (.readOnlyRegister .outLen)
  | .tableValid => .refused (.readOnlyRegister .tableValid)

/-- The value a host read of a register returns (R25); `CMD` is write-only (U7). -/
def hostReadReg (s : State) (r : RegName) : Except Refusal Nat :=
  match r with
  | .cmd => .error .writeOnlyRegister
  | .status => .ok s.status.code.toNat
  | .sampleCount => .ok s.sampleCount
  | .msgLen => .ok s.msgLen
  | .result => .ok s.result
  | .outLen => .ok s.outLen
  | .tableValid => .ok s.tableValid.toNat

/-- The number of cells of a space that exist (R37). -/
def State.cellCount (s : State) (sp : Space) : Nat :=
  match sp with
  | .car => s.sampleCount
  | .msg => s.msgLen
  | .out => s.outLen
  | .tab => nVec
  | .hrom => synWidth * group

/-- The content of a cell as a number (R37 to R42). -/
def State.cell (s : State) (sp : Space) (a : Nat) : Nat :=
  match sp with
  | .car => (s.sample a).toNat
  | .msg => (s.messageByte a).toNat
  | .out => (s.outByte a).toNat
  | .tab => (s.entry a).toNat
  | .hrom => (hromBit s.config.h.mat a).toNat

/-- Host write of one cell: `CAR` and `MSG` only, and only a cell that exists (R37, R46, U7, U8; log 9). -/
def hostWriteCell (sp : Space) (a : Nat) (v : Byte) (s : State) : Host.Outcome State Fault Refusal :=
  match sp with
  | .car => if a < s.sampleCount then .next (s.withCar (Cells.write s.car a v)) else .refused (.noSuchCell .car a)
  | .msg => if a < s.msgLen then .next (s.withMsg (Cells.write s.msg a v)) else .refused (.noSuchCell .msg a)
  | .out => .refused (.readOnlySpace .out)
  | .tab => .refused (.readOnlySpace .tab)
  | .hrom => .refused (.readOnlySpace .hrom)

/-- Whether the host reads a space: all but `MSG` (R37; log 9). -/
def Space.hostReadable (sp : Space) : Bool :=
  match sp with
  | .car => true
  | .msg => false
  | .out => true
  | .tab => true
  | .hrom => true

/-- The value a host read of a cell returns (R37, R49); the cell must exist (R46, U8). -/
def hostReadCell (s : State) (sp : Space) (a : Nat) : Except Refusal Nat :=
  if !sp.hostReadable then .error (.unreadableSpace sp)
  else if a < s.cellCount sp then .ok (s.cell sp a)
  else .error (.noSuchCell sp a)

/-- The effect of a host read on the block: none (R49); a read without a meaning is refused. -/
def readOutcome (r : Except Refusal Nat) (s : State) : Host.Outcome State Fault Refusal :=
  match r with
  | .ok _ => .next s
  | .error e => .refused e

/-- Reset of the block (R36, R125): the registers at their reset values, every cell unspecified again, `H` and the other
parameters untouched, the host's further actions still to come (log 10). -/
def applyReset (s : State) : State := State.afterReset s.config (s.draw + 1) s.pending

/-- The effect of a host action that starts no operation. -/
def hostEffect (act : HostAction) (s : State) : Host.Outcome State Fault Refusal :=
  match act with
  | .writeReg r v => hostWriteReg r v s
  | .readReg r => readOutcome (hostReadReg s r) s
  | .writeCell sp a v => hostWriteCell sp a v s
  | .readCell sp a => readOutcome (hostReadCell s sp a) s
  | .reset => .next (applyReset s)

end Sys2Proof.Machine
end

