-- ==== Sys2Proof/Machine/Fetch.lean ====
section
/-! DEFINITION. Taking the host's next action: a command to run, another action, or nothing to do (R26, R32, R53). -/

namespace Sys2Proof.Machine

/-- The operation an action starts, if it is a write of a command word to `CMD` (R26). -/
def HostAction.command? (act : HostAction) : Option Instr :=
  match act with
  | .writeReg r w => if r = .cmd then decodeTableWord 2 w else none
  | .readReg _ => none
  | .writeCell _ _ _ => none
  | .readCell _ _ => none
  | .reset => none

/-- The operation that the host's next action starts, with the state in which it runs: that action taken off the queue. -/
def nextCommand (s : State) : Option (Instr × State) :=
  match s.pending with
  | [] => none
  | act :: rest =>
    match act.command? with
    | some i => some (i, s.withPending rest)
    | none => none

/-- A step in which no operation starts: the host's next action, or, when there is none, the idle block (R122). -/
def hostTurn (s : State) : Host.Outcome State Fault Refusal :=
  match s.pending with
  | [] => .next s
  | act :: rest => hostEffect act (s.withPending rest)

end Sys2Proof.Machine
end

