-- ==== Sys2Proof/Machine/Step.lean ====
section
/-! DEFINITION. One step: the host's next action, an operation running whole as one step (R9, R32). -/

namespace Sys2Proof.Machine

/-- One step of the machine. -/
def step (s : State) : Host.Outcome State Fault Refusal :=
  match nextCommand s with
  | some (i, s') => exec i s'
  | none => hostTurn s

/-- `s` with a write of the word to `CMD` as the host's very next action: the block fetches nothing, and an operation
starts when the host writes its word (R26, R32; log 6). -/
def State.withFetchWord (s : State) (_nbits w : Nat) : State := s.withPending (.writeReg .cmd w :: s.pending)

end Sys2Proof.Machine
end

