-- ==== Sys2Proof/Machine/Asm.lean ====
section
/-! DEFINITION. The assembler syntax of host programs (R72) and its pseudo-instructions (R73). -/

namespace Sys2Proof.Machine

/-- What an `EXPECT` names: a register or a whole space, with the value it is expected to have (R72). -/
inductive Expectation where
  | reg (r : RegName) (v : Nat)
  | space (sp : Space) (vs : List Nat)
  deriving DecidableEq, Repr

/-- Whether an expectation holds: a space has exactly the listed cells, index 0 first (R72). DESIGN CHOICE, log 16: an
expectation about `CMD`, which stores no value (R26), never holds; one about `MSG` looks at its cells. -/
def Expectation.holds (e : Expectation) (s : State) : Bool :=
  match e with
  | .reg r v => match hostReadReg s r with
    | .ok n => n == v
    | .error _ => false
  | .space sp vs => (List.range (s.cellCount sp)).map (s.cell sp) == vs

/-- The registers a `SET` names (R72). -/
inductive LengthReg where
  | sampleCount
  | msgLen
  deriving DecidableEq, Repr

/-- The register of a `SET` among the block's registers (R25). -/
def LengthReg.reg (r : LengthReg) : RegName :=
  match r with
  | .sampleCount => .sampleCount
  | .msgLen => .msgLen

/-- The spaces a `LOAD` names (R72). -/
inductive LoadSpace where
  | car
  | msg
  deriving DecidableEq, Repr

/-- The space of a `LOAD` among the block's spaces (R37). -/
def LoadSpace.space (sp : LoadSpace) : Space :=
  match sp with
  | .car => .car
  | .msg => .msg

/-- The statements of a host program (R72). -/
inductive Stmt where
  | build
  | encode
  | decode
  | capacity
  | set (r : LengthReg) (n : Nat)
  | load (sp : LoadSpace) (bs : List Byte)
  | expect (e : Expectation)
  | reset
  deriving DecidableEq, Repr

/-- Writes of the listed bytes to a space, the first at index `a` (R72). -/
def loadActions (sp : Space) (a : Nat) (bs : List Byte) : List HostAction :=
  match bs with
  | [] => []
  | b :: rest => .writeCell sp a b :: loadActions sp (a + 1) rest

/-- The write to `CMD` that starts an operation (R72). -/
def commandAction (i : Instr) : HostAction := .writeReg .cmd (encodeWord i)

/-- The host actions a statement stands for; an `EXPECT` is no action (R72). -/
def Stmt.actions (st : Stmt) : List HostAction :=
  match st with
  | .build => [commandAction .build]
  | .encode => [commandAction .encode]
  | .decode => [commandAction .decode]
  | .capacity => [commandAction .capacity]
  | .set r n => [.writeReg r.reg n]
  | .load sp bs => loadActions sp.space 0 bs
  | .expect _ => []
  | .reset => [.reset]

/-- `encode(carrier, message)` (R73). -/
def encodeCall (carrier message : List Byte) : List Stmt :=
  [.set .sampleCount carrier.length, .load .car carrier, .set .msgLen message.length, .load .msg message, .encode]

/-- `decode(carrier, n)` (R73). -/
def decodeCall (carrier : List Byte) (n : Nat) : List Stmt :=
  [.set .sampleCount carrier.length, .load .car carrier, .set .msgLen n, .decode]

/-- The host actions of a program, in order (R32, R72). -/
def programActions (p : List Stmt) : List HostAction := p.flatMap Stmt.actions

end Sys2Proof.Machine
end

