-- ==== Sys2Proof/Machine/ClosedForm.lean ====
section
/-! DEFINITION. The closed form of a table entry (R88), for statements that compare BUILD with it; no step uses it. -/

namespace Sys2Proof.Machine

/-- `B · (d2, d4, d5, d6)`: the part of the syndrome that the class index fixes (R88). -/
def fixedSyndrome (m : ParityMatrix) (d : Bool × Bool × Bool × Bool) : BitVector3 :=
  syndrome m ⟨false, false, d.1, false, d.2.1, d.2.2.1, d.2.2.2⟩

/-- `Ainv · q`, `Ainv` being the adjugate of columns 0, 1, 3 over GF(2) (R88). -/
def applyInverse (m : ParityMatrix) (q : BitVector3) : BitVector3 :=
  let a := m.row0
  let b := m.row1
  let c := m.row2
  ⟨(((b.b1 && c.b3) ^^ (b.b3 && c.b1)) && q.s0) ^^ (((a.b1 && c.b3) ^^ (a.b3 && c.b1)) && q.s1) ^^
      (((a.b1 && b.b3) ^^ (a.b3 && b.b1)) && q.s2),
    (((b.b0 && c.b3) ^^ (b.b3 && c.b0)) && q.s0) ^^ (((a.b0 && c.b3) ^^ (a.b3 && c.b0)) && q.s1) ^^
      (((a.b0 && b.b3) ^^ (a.b3 && b.b0)) && q.s2),
    (((b.b0 && c.b1) ^^ (b.b1 && c.b0)) && q.s0) ^^ (((a.b0 && c.b1) ^^ (a.b1 && c.b0)) && q.s1) ^^
      (((a.b0 && b.b1) ^^ (a.b1 && b.b0)) && q.s2)⟩

/-- `table(H)[u][v]` in closed form, as a vector (R88). -/
def closedFormVector (m : ParityMatrix) (u : ClassIndex) (v : TargetValue) : BitVector7 :=
  let d := ubits u
  let f := applyInverse m (BitVector3.add (vbits v) (fixedSyndrome m d))
  ⟨f.s0, f.s1, d.1, f.s2, d.2.1, d.2.2.1, d.2.2.2⟩

end Sys2Proof.Machine
end

