-- ==== Sys2Proof/Safety.lean ====
section
/-! DEFINITION. What claims are stated in: the invariant of the state, and when an operation succeeds. -/

namespace Sys2Proof.Machine

/-- The invariant: spaces in canonical form, `TAB` holding the table of `H` while `TABLE_VALID` is 1 (R22, R23),
recovered bytes below 128 (R34), no byte of `OUT` below `OUT_LEN` unwritten (R40), and every length register
representable (R12). -/
structure State.Inv (s : State) : Prop where
  carWf : Memory.wf s.car = true
  msgWf : Memory.wf s.msg = true
  outWf : Memory.wf s.out = true
  tabWf : Cells.wf s.tab = true
  tabInRange : ∀ c ∈ s.tab, c.1 < nVec
  tabBuilt : s.tableValid = true → s.tab = builtTable s.config.h
  outAscii : ∀ c ∈ s.out, c.2.toNat < asciiLimit
  outWritten : ∀ a, a < s.outLen → Cells.read? s.out a ≠ none
  sampleCountFits : s.config.fits s.sampleCount = true
  msgLenFits : s.config.fits s.msgLen = true
  resultFits : s.config.fits s.result = true
  outLenFits : s.config.fits s.outLen = true

/-- Every message byte is below 128 (R93 condition 4). -/
def State.AsciiMessage (s : State) : Prop := ∀ i, i < s.msgLen → (s.messageByte i).toNat < 128

/-- One of the four conditions of R93 holds. -/
def State.InvalidInput (s : State) : Prop :=
  s.sampleCount = 0 ∨ s.msgLen = 0 ∨ s.msgLen > max 1 s.sampleCount - 1 ∨
    ∃ i, i < s.msgLen ∧ 128 ≤ (s.messageByte i).toNat

/-- When an ENCODE succeeds (R94, R95): the conditions of section 7 item 5 of 95_test_vectors.md. -/
def State.EncodeReady (s : State) : Prop :=
  1 ≤ s.msgLen ∧ 7 * s.msgLen ≤ s.sampleCount ∧ s.AsciiMessage ∧
    (s.tableValid = true ∨ s.config.lazyBuild = true)

/-- When a DECODE succeeds (R102). -/
def State.DecodeReady (s : State) : Prop := 7 * s.msgLen ≤ s.sampleCount

end Sys2Proof.Machine
end

