-- ==== Sys2Proof/Certificates/Slice0/Obligations.lean ====
section
/-! DEFINITION. The statements for the provers. -/

open Sys2Proof Sys2Proof.Machine

/-- The opcode map of R68. Rejecting a number of more than 2 bits is the model's choice, log 7. -/
def Obligations.CommandWordsDecodeToTheirOperations : Prop :=
  decode 0b00 = .ok .build ∧ decode 0b01 = .ok .encode ∧ decode 0b10 = .ok .decode ∧
    decode 0b11 = .ok .capacity ∧ ∀ w, 4 ≤ w → decode w = .error (.notTwoBits w)

/-- The command word and its operation determine each other (R68). That no number of 4 or more decodes to an operation is the model's choice, log 7. -/
def Obligations.DecodeAndEncodeAgree : Prop :=
  (∀ i, decode (encodeWord i) = .ok i) ∧ ∀ w i, decode w = .ok i → encodeWord i = w

/-- A write to `CMD` starts the operation of its value and stores nothing (R26). The queue is the model's (log 6), the refusal log 7. -/
def Obligations.StepRunsTheDecodedCommand : Prop :=
  ∀ (s : State) (w : Nat) (rest : List HostAction), s.pending = .writeReg .cmd w :: rest →
    (∀ i, decode w = .ok i → step s = exec i { s with pending := rest }) ∧
      (∀ e, decode w = .error e → step s = .refused (.commandTooWide w))

/-- The reset values of R36; the last two clauses are the model's choices (logs 2, 3, 6). -/
def Obligations.ResetStateHoldsTheSpecValues : Prop :=
  State.reset.tableValid = false ∧ State.reset.status.code = 0#3 ∧ State.reset.sampleCount = 0 ∧
    State.reset.msgLen = 0 ∧ State.reset.result = 0 ∧ State.reset.outLen = 0 ∧
    (∀ a, Cells.read? State.reset.tab a = none ∧ Cells.read? State.reset.car a = none ∧
      Cells.read? State.reset.msg a = none ∧ Cells.read? State.reset.out a = none) ∧
    State.reset.config = Config.modelled ∧ State.reset.pending = []

/-- Reset, R125 and R36. That the host's further actions stay queued is the model's choice, log 10. -/
def Obligations.ResetActionRestoresTheResetValues : Prop :=
  ∀ (s : State) (rest : List HostAction), s.pending = .reset :: rest →
    ∃ t, step s = .next t ∧ t.tableValid = false ∧ t.status = .ok ∧ t.sampleCount = 0 ∧ t.msgLen = 0 ∧
      t.result = 0 ∧ t.outLen = 0 ∧ t.config = s.config ∧ t.pending = rest ∧
      ∀ a, Cells.read? t.tab a = none ∧ Cells.read? t.car a = none ∧ Cells.read? t.msg a = none ∧
        Cells.read? t.out a = none

/-- R126, marked derived in the spec. -/
def Obligations.OperationsStraightAfterReset : Prop :=
  ∀ (c : Config) (n : Nat) (acts : List HostAction),
    exec .build (State.afterReset c n acts) =
        .next { State.afterReset c n acts with tab := builtTable c.h, tableValid := true } ∧
      exec .capacity (State.afterReset c n acts) = .next (State.afterReset c n acts) ∧
      exec .decode (State.afterReset c n acts) = .next (State.afterReset c n acts) ∧
      exec .encode (State.afterReset c n acts) =
        .next { State.afterReset c n acts with status := .invalidInput }

/-- R108, with its frame. -/
def Obligations.CapacityWritesTheBound : Prop :=
  ∀ s : State,
    exec .capacity s = .next { s with result := max 1 s.sampleCount - 1, status := .ok } ∧
      (s.config.fits s.sampleCount = true → s.config.fits (max 1 s.sampleCount - 1) = true)

/-- The defining property of the table, R87, for every `H` a configuration can have. -/
def Obligations.BuildFilesEachVectorUnderItsIndices : Prop :=
  ∀ s : State, ∃ t, exec .build s = .next t ∧ t.tableValid = true ∧ t.status = .ok ∧
    ∀ (u : ClassIndex) (v : TargetValue),
      classIdx (t.tableVector u v) = u ∧ packV (syndrome s.config.h.mat (t.tableVector u v)) = v ∧
      (∀ w, classIdx w = u → packV (syndrome s.config.h.mat w) = v → w = t.tableVector u v) ∧
      (∀ v', t.entry (tableIndex u v) = t.entry (tableIndex u v') → v = v')

/-- The last sentence but two of R87: all of it holds exactly when `WF(H)` holds. -/
def Obligations.SyndromeIndexesAreUniqueExactlyWhenWellFormed : Prop :=
  ∀ m : ParityMatrix,
    (∀ (u : ClassIndex) (v : TargetValue), ∃! w : BitVector7, classIdx w = u ∧ packV (syndrome m w) = v) ↔
      m.wf = true

/-- R88, marked derived in the spec: the algorithm of BUILD agrees with the closed form. -/
def Obligations.BuildEqualsTheClosedForm : Prop :=
  ∀ s : State, ∃ t, exec .build s = .next t ∧
    ∀ (u : ClassIndex) (v : TargetValue),
      t.tableVector u v = closedFormVector s.config.h.mat u v ∧
      hostReadCell t .tab (8 * u.toNat + v.toNat) = .ok (pack7 (closedFormVector s.config.h.mat u v))

/-- The frame of BUILD, R86. -/
def Obligations.BuildWritesAllEntriesAndNothingElse : Prop :=
  ∀ s : State, ∃ t, exec .build s = .next t ∧
    t = { s with tab := t.tab, tableValid := true, status := .ok } ∧
    (∀ a, a < 128 → Cells.read? t.tab a ≠ none) ∧
    (∀ a, 128 ≤ a → Cells.read? t.tab a = Cells.read? s.tab a)

/-- R90: a second BUILD. -/
def Obligations.BuildAgainChangesOnlyStatus : Prop :=
  ∀ s : State, s.Inv → s.tableValid = true → exec .build s = .next { s with status := .ok }

/-- R91, marked derived in the spec. -/
def Obligations.BuiltTableInvertsTheMessageSplit : Prop :=
  ∀ s : State, s.Inv → s.tableValid = true →
    (∀ (u : ClassIndex) (v : TargetValue),
      classIdx (s.tableVector u v) = u ∧
      (s.entry (tableIndex u v)).getLsbD 2 = u.getLsbD 3 ∧ (s.entry (tableIndex u v)).getLsbD 4 = u.getLsbD 2 ∧
      (s.entry (tableIndex u v)).getLsbD 5 = u.getLsbD 1 ∧ (s.entry (tableIndex u v)).getLsbD 6 = u.getLsbD 0 ∧
      classIdx (bits7 (decByte s.config.h.mat (s.tableVector u v))) = u ∧
      target (bits7 (decByte s.config.h.mat (s.tableVector u v))) = v) ∧
    (∀ x, x < 128 → ∃! p : ClassIndex × TargetValue, (s.entry (tableIndex p.1 p.2)).toNat = x) ∧
    s.entry 0 = 0#7

/-- The four laws of R84, marked derived in the spec. -/
def Obligations.BitFieldLawsAndDecByteBijection : Prop :=
  (∀ x, x < 128 → pack7 (bits7 x) = x) ∧ (∀ w, bits7 (pack7 w) = w) ∧
    (∀ (u : ClassIndex) (v : TargetValue), ∃! w : BitVector7, classIdx w = u ∧ target w = v) ∧
    (∀ (m : ParityMatrix) (r : BitVector7), decByte m r < 128 ∧
      classIdx (bits7 (decByte m r)) = classIdx r ∧ target (bits7 (decByte m r)) = packV (syndrome m r)) ∧
    (∀ m : ParityMatrix,
      (Function.Injective (decByte m) ∧ ∀ x, x < 128 → ∃ r, decByte m r = x) ↔ m.wf = true)

/-- R79 in its equivalent form; linearity is marked derived there. -/
def Obligations.SyndromeIsTheParityOfSelectedPositions : Prop :=
  ∀ (m : ParityMatrix) (a b : BitVector7),
    ((syndrome m a).s0 = true ↔ ((List.range 7).filter (fun c => m.bit 0 c && a.pos c)).length % 2 = 1) ∧
    ((syndrome m a).s1 = true ↔ ((List.range 7).filter (fun c => m.bit 1 c && a.pos c)).length % 2 = 1) ∧
    ((syndrome m a).s2 = true ↔ ((List.range 7).filter (fun c => m.bit 2 c && a.pos c)).length % 2 = 1) ∧
    syndrome m (bits7 0) = ⟨false, false, false⟩ ∧
    syndrome m (a.add b) = (syndrome m a).add (syndrome m b)

/-- R82 with its derived corner cases. -/
def Obligations.LsbMergeReplacesOnlyTheLsb : Prop :=
  ∀ (b : Byte) (x : Bool),
    lsbMerge b x = (b &&& 0xFE#8) ||| (if x then 1#8 else 0#8) ∧ lsb (lsbMerge b x) = x ∧
    lsbMerge b x >>> 1 = b >>> 1 ∧ lsbMerge b (lsb b) = b ∧
    (lsbMerge b x).toNat ≤ b.toNat + 1 ∧ b.toNat ≤ (lsbMerge b x).toNat + 1

/-- The derived sentence of R94: when an ENCODE succeeds. -/
def Obligations.EncodeSucceedsExactlyWhenReady : Prop :=
  ∀ s : State, ∃ t, exec .encode s = .next t ∧ (t.status = .ok ↔ s.EncodeReady)

/-- The transform of R96, the merged samples as the host reads them (R53), and the frame of a successful ENCODE on a valid table. -/
def Obligations.EncodeWritesEachSampleOfEachGroup : Prop :=
  (∀ s : State, s.tableValid = true → 1 ≤ s.msgLen → 7 * s.msgLen ≤ s.sampleCount → s.AsciiMessage →
    ∃ t, exec .encode s = .next t ∧ t = { s with car := t.car, status := .ok } ∧
      (∀ i k, i < s.msgLen → k < 7 →
        t.sample (sampleIndex i k) =
          lsbMerge (s.sample (sampleIndex i k))
            ((s.tableVector (classIdx (bits7 (s.messageByte i).toNat))
              (target (bits7 (s.messageByte i).toNat))).pos k) ∧
        hostReadCell t .car (sampleIndex i k) = .ok (t.sample (sampleIndex i k)).toNat) ∧
      (∀ a, (∀ i k, i < s.msgLen → k < 7 → a ≠ sampleIndex i k) → t.sample a = s.sample a)) ∧
    ∀ (d i j : Nat) (w w' : BitVector7) (m : Memory), Memory.wf m = true → i ≠ j →
      writeGroup d i w (writeGroup d j w' m) = writeGroup d j w' (writeGroup d i w m)

/-- The postcondition of R97, with and without a lazy build. -/
def Obligations.EncodePostconditionOfEachGroup : Prop :=
  ∀ s : State, s.Inv → s.EncodeReady →
    ∃ t, exec .encode s = .next t ∧ t.status = .ok ∧
      ∀ i, i < s.msgLen →
        (t.groupLsbs i).b2 = (bits7 (s.messageByte i).toNat).b2 ∧
        (t.groupLsbs i).b4 = (bits7 (s.messageByte i).toNat).b4 ∧
        (t.groupLsbs i).b5 = (bits7 (s.messageByte i).toNat).b5 ∧
        (t.groupLsbs i).b6 = (bits7 (s.messageByte i).toNat).b6 ∧
        syndrome s.config.h.mat (t.groupLsbs i) =
          ⟨(bits7 (s.messageByte i).toNat).b0, (bits7 (s.messageByte i).toNat).b1,
            (bits7 (s.messageByte i).toNat).b3⟩

/-- Locality, R98. -/
def Obligations.EncodeTouchesOnlyLsbsOfUsedSamples : Prop :=
  ∀ s t : State, exec .encode s = .next t →
    (t.status = .ok →
      (∀ a, 7 * s.msgLen ≤ a → t.sample a = s.sample a ∧ Cells.read? t.car a = Cells.read? s.car a) ∧
      (∀ a, a < 7 * s.msgLen → t.sample a >>> 1 = s.sample a >>> 1) ∧
      t = { s with car := t.car, tab := t.tab, tableValid := t.tableValid, status := .ok } ∧
      (s.tableValid = true ∨ s.config.lazyBuild = false → t.tab = s.tab ∧ t.tableValid = s.tableValid)) ∧
    (t.status ≠ .ok → t = { s with status := t.status })

/-- R95 for both settings of `LAZY_BUILD`. -/
def Obligations.LazyBuildOrNoTable : Prop :=
  ∀ s : State,
    (s.tableValid = true → ∃ t, exec .encode s = .next t ∧ t.tab = s.tab ∧ t.tableValid = true ∧
      t.status ≠ .noTable) ∧
    (s.tableValid = false → 1 ≤ s.msgLen → 7 * s.msgLen ≤ s.sampleCount → s.AsciiMessage →
      (s.config.lazyBuild = false → exec .encode s = .next { s with status := .noTable }) ∧
      (s.config.lazyBuild = true → ∃ b t, exec .build s = .next b ∧ exec .encode b = .next t ∧
        exec .encode s = .next t ∧ t.status = .ok ∧ t.tableValid = true)) ∧
    (¬ (1 ≤ s.msgLen ∧ 7 * s.msgLen ≤ s.sampleCount ∧ s.AsciiMessage) →
      ∃ t, exec .encode s = .next t ∧ t.tab = s.tab ∧ t.tableValid = s.tableValid ∧ t.status ≠ .noTable ∧
        t.status ≠ .ok)

/-- Idempotence, R100. -/
def Obligations.EncodeTwiceIsEncodeOnce : Prop :=
  ∀ s t : State, exec .encode s = .next t → t.status = .ok → exec .encode t = .next t

/-- The clause of R100 marked derived. -/
def Obligations.EncodedLsbsDependOnMessageAndMatrixOnly : Prop :=
  ∀ s₁ s₂ t₁ t₂ : State, s₁.Inv → s₂.Inv → s₁.config.h = s₂.config.h →
    exec .encode s₁ = .next t₁ → t₁.status = .ok → exec .encode s₂ = .next t₂ → t₂.status = .ok →
    ∀ i, i < s₁.msgLen → i < s₂.msgLen → s₁.messageByte i = s₂.messageByte i →
      t₁.groupLsbs i = t₂.groupLsbs i

/-- Determinism, R99, and the first sentence of R46. -/
def Obligations.EncodeIsDeterminedByItsOperands : Prop :=
  ∀ s₁ s₂ : State, s₁.Inv → s₂.Inv → s₁.config.h = s₂.config.h →
    s₁.config.lazyBuild = s₂.config.lazyBuild → s₁.tableValid = s₂.tableValid →
    s₁.sampleCount = s₂.sampleCount → s₁.msgLen = s₂.msgLen →
    (∀ a, a < s₁.sampleCount → s₁.sample a = s₂.sample a) →
    (∀ i, i < s₁.msgLen → s₁.messageByte i = s₂.messageByte i) →
    ∃ t₁ t₂, exec .encode s₁ = .next t₁ ∧ exec .encode s₂ = .next t₂ ∧ t₁.status = t₂.status ∧
      ∀ a, a < s₁.sampleCount → t₁.sample a = t₂.sample a

/-- R112 to R115, with the priority of R118. -/
def Obligations.FailuresAreRaisedExactlyUnderTheirConditions : Prop :=
  ∀ (i : Instr) (s t : State), exec i s = .next t →
    (t.status = .invalidInput ↔ i = .encode ∧ s.InvalidInput) ∧
    (t.status = .insufficientCarrier ↔ i = .decode ∧ s.sampleCount < 7 * s.msgLen) ∧
    (t.status = .noTable ↔ i = .encode ∧ ¬ s.InvalidInput ∧ 7 * s.msgLen ≤ s.sampleCount ∧
      s.tableValid = false ∧ s.config.lazyBuild = false) ∧
    (t.status = .overrun ↔ i = .encode ∧ ¬ s.InvalidInput ∧ 7 * s.msgLen > s.sampleCount) ∧
    (t.status ≠ .ok → t = { s with status := t.status })

/-- Failure entry, R116. Every operation completes (R136). -/
def Obligations.FailedOperationChangesOnlyStatus : Prop :=
  ∀ (i : Instr) (s : State), ∃ t, exec i s = .next t ∧
    (t.status = .ok ∨ ∃ e : Failure, t = { s with status := e.status })

/-- The transform of DECODE, R101 and R103, its result as the host reads it (R53), and its frame. That `OUT` at or beyond `MSG_LEN`
reads as before is the model's choice, log 13 (and log 4 for a cell never written). -/
def Obligations.DecodeRecoversEachGroup : Prop :=
  ∀ s : State, s.DecodeReady →
    ∃ t, exec .decode s = .next t ∧ t = { s with out := t.out, outLen := s.msgLen, status := .ok } ∧
      (∀ i, i < s.msgLen →
        (t.outByte i).toNat =
          pack7 (assemble (s.groupLsbs i) (syndrome s.config.h.mat (s.groupLsbs i))) ∧
        (t.outByte i).toNat < 128 ∧
        hostReadCell t .out i = .ok (decByte s.config.h.mat (s.groupLsbs i))) ∧
      (∀ a, s.msgLen ≤ a → t.outByte a = s.outByte a ∧ Cells.read? t.out a = Cells.read? s.out a) ∧
      exec .decode t = .next t

/-- R102, and R124: no carrier of sufficient length is a failure. -/
def Obligations.DecodeFailsExactlyOnAShortCarrier : Prop :=
  ∀ s : State,
    (s.sampleCount < 7 * s.msgLen → exec .decode s = .next { s with status := .insufficientCarrier }) ∧
      (7 * s.msgLen ≤ s.sampleCount → ∃ t, exec .decode s = .next t ∧ t.status = .ok)

/-- R104. -/
def Obligations.ZeroLengthDecodeSucceedsEmpty : Prop :=
  ∀ s : State, s.msgLen = 0 → exec .decode s = .next { s with outLen := 0, status := .ok }

/-- R107, and bits 7 to 1 of R44. -/
def Obligations.DecodeDependsOnMatrixLengthsAndLsbsOnly : Prop :=
  ∀ s₁ s₂ : State, s₁.config.h = s₂.config.h → s₁.sampleCount = s₂.sampleCount → s₁.msgLen = s₂.msgLen →
    (∀ a, a < 7 * s₁.msgLen → lsb (s₁.sample a) = lsb (s₂.sample a)) →
    ∃ t₁ t₂, exec .decode s₁ = .next t₁ ∧ exec .decode s₂ = .next t₂ ∧ t₁.status = t₂.status ∧
      (t₁.status = .ok → t₁.outLen = t₂.outLen ∧ ∀ i, i < t₁.outLen → t₁.outByte i = t₂.outByte i)

/-- The round trip of R105, with its result as the host reads it (R53). -/
def Obligations.DecodeInvertsEncode : Prop :=
  ∀ s t : State, s.Inv → exec .encode s = .next t → t.status = .ok →
    ∃ r, exec .decode t = .next r ∧ r.status = .ok ∧ r.outLen = s.msgLen ∧
      ∀ i, i < s.msgLen →
        r.outByte i = s.messageByte i ∧ hostReadCell r .out i = .ok (s.messageByte i).toNat

/-- The last sentence of R105. -/
def Obligations.RoundTripFailsExactlyWhenAnLsbChanged : Prop :=
  ∀ s t c r : State, s.Inv → exec .encode s = .next t → t.status = .ok → c.config.h = s.config.h →
    c.sampleCount = s.sampleCount → c.msgLen = s.msgLen → exec .decode c = .next r →
      r.status = .ok ∧
      ((∀ i, i < s.msgLen → r.outByte i = s.messageByte i) ↔
        ∀ a, a < 7 * s.msgLen → lsb (c.sample a) = lsb (t.sample a))

/-- What each operation may write: R68 and R20, and R92, R95, R98 for `TAB` and `TABLE_VALID` of a lazy ENCODE. That `OUT` at or beyond
`MSG_LEN` reads as before a DECODE is the model's choice, log 13 (and log 4 for a cell never written). -/
def Obligations.EachOperationWritesOnlyItsOwnState : Prop :=
  ∀ (i : Instr) (s t : State), exec i s = .next t →
    match i with
    | .build =>
      t = { s with tab := t.tab, tableValid := t.tableValid, status := t.status } ∧
        ∀ a, 128 ≤ a → t.entry a = s.entry a
    | .encode =>
      t = { s with car := t.car, tab := t.tab, tableValid := t.tableValid, status := t.status } ∧
        (s.tableValid = true ∨ s.config.lazyBuild = false → t.tab = s.tab ∧ t.tableValid = s.tableValid) ∧
        (∀ a, 128 ≤ a → t.entry a = s.entry a) ∧
        ∀ a, (∀ j k, j < s.msgLen → k < 7 → a ≠ sampleIndex j k) → t.sample a = s.sample a
    | .decode =>
      t = { s with out := t.out, outLen := t.outLen, status := t.status } ∧
        ∀ a, s.msgLen ≤ a → t.outByte a = s.outByte a
    | .capacity => t = { s with result := t.result, status := t.status }

/-- R30. -/
def Obligations.OnlyCapacityWritesResult : Prop :=
  ∀ (i : Instr) (s t : State), exec i s = .next t →
    t.result = if i = .capacity then max 1 s.sampleCount - 1 else s.result

/-- R31. -/
def Obligations.OnlySuccessfulDecodeWritesOutLen : Prop :=
  ∀ (i : Instr) (s t : State), exec i s = .next t →
    t.outLen = if i = .decode ∧ t.status = .ok then s.msgLen else s.outLen

/-- R23 for BUILD and reset, R95 for a lazy ENCODE, which performs the algorithm of BUILD and so sets the flag. -/
def Obligations.TableValidChangesOnlyByBuildLazyEncodeAndReset : Prop :=
  ∀ s t : State, s.Inv → step s = .next t →
    (s.pending.head? = some .reset → t.tableValid = false) ∧
    (s.pending.head? ≠ some .reset → s.tableValid = true → t.tableValid = true) ∧
    (s.tableValid = false → t.tableValid = true → ∃ w, s.pending.head? = some (.writeReg .cmd w) ∧
      (decode w = .ok .build ∨ decode w = .ok .encode ∧ s.config.lazyBuild = true)) ∧
    (s.pending.head? = some (.writeReg .cmd (encodeWord .build)) → t.tableValid = true) ∧
    (t.tableValid = true → t.tab = builtTable t.config.h)

/-- R21: no operation writes `H` and reset does not change it. -/
def Obligations.StepKeepsTheConfiguration : Prop :=
  ∀ s t : State, step s = .next t → t.config = s.config

/-- Operations run one at a time in issue order (R32, R53). The queue is log 6. -/
def Obligations.StepTakesTheHostsActionsInOrder : Prop :=
  ∀ s : State, (∀ t, step s = .next t → t.pending = s.pending.tail) ∧ (s.pending = [] → step s = .next s)

/-- The invariant holds after reset (R36). -/
def Obligations.ResetStatesMeetTheInvariant : Prop :=
  State.reset.Inv ∧ ∀ (c : Config) (n : Nat) (acts : List HostAction), (State.afterReset c n acts).Inv

/-- The invariant of Safety.lean is inductive (R12, R22, R34, R40, R44). -/
def Obligations.StepKeepsTheInvariant : Prop :=
  ∀ s t : State, s.Inv → step s = .next t → t.Inv

/-- R25, R27, R49. The form of a read is the model's (log 8). -/
def Obligations.HostReadsReturnRegistersAndChangeNothing : Prop :=
  ∀ (s : State) (rest : List HostAction),
    hostReadReg s .status = .ok s.status.code.toNat ∧ s.status.code.toNat ≤ 4 ∧
    hostReadReg s .sampleCount = .ok s.sampleCount ∧ hostReadReg s .msgLen = .ok s.msgLen ∧
    hostReadReg s .result = .ok s.result ∧ hostReadReg s .outLen = .ok s.outLen ∧
    hostReadReg s .tableValid = .ok (if s.tableValid then 1 else 0) ∧
    (∀ r, r ≠ .cmd → s.pending = .readReg r :: rest → step s = .next { s with pending := rest }) ∧
    (s.pending = .readReg .cmd :: rest → step s = .refused .writeOnlyRegister)

/-- R25, R28, R29, and R46: a write to a length register changes no cell. -/
def Obligations.HostRegisterWritesReachOnlyTheLengths : Prop :=
  ∀ (s : State) (rest : List HostAction) (v : Nat),
    (s.pending = .writeReg .sampleCount v :: rest →
      (s.config.fits v = true → step s = .next { s with sampleCount := v, pending := rest }) ∧
      (s.config.fits v = false → step s = .refused (.lengthTooWide v))) ∧
    (s.pending = .writeReg .msgLen v :: rest →
      (s.config.fits v = true → step s = .next { s with msgLen := v, pending := rest }) ∧
      (s.config.fits v = false → step s = .refused (.lengthTooWide v))) ∧
    (∀ r, r = .status ∨ r = .result ∨ r = .outLen ∨ r = .tableValid → s.pending = .writeReg r v :: rest →
      step s = .refused (.readOnlyRegister r))

/-- R37, R46, R49, R53, U7, U8; the value of a cell never written is free (log 4). That OUT writes and MSG reads are refused is read from R37 (log 9). -/
def Obligations.HostCellAccessesFollowTheRights : Prop :=
  ∀ (s : State) (rest : List HostAction) (a : Nat) (v : Byte),
    (s.pending = .writeCell .car a v :: rest →
      (a < s.sampleCount → ∃ m, step s = .next { s with car := m, pending := rest }) ∧
      (s.sampleCount ≤ a → step s = .refused (.noSuchCell .car a))) ∧
    (s.pending = .writeCell .msg a v :: rest →
      (a < s.msgLen → ∃ m, step s = .next { s with msg := m, pending := rest }) ∧
      (s.msgLen ≤ a → step s = .refused (.noSuchCell .msg a))) ∧
    (∀ sp, sp = .out ∨ sp = .tab ∨ sp = .hrom → s.pending = .writeCell sp a v :: rest →
      step s = .refused (.readOnlySpace sp)) ∧
    (∀ sp n x, (sp, n, x) ∈ [(Space.car, s.sampleCount, (s.sample a).toNat), (.out, s.outLen, (s.outByte a).toNat),
        (.tab, 128, (s.entry a).toNat), (.hrom, 21, (s.config.h.mat.bit (a / 7) (a % 7)).toNat)] →
      (a < n → hostReadCell s sp a = .ok x) ∧
      (s.pending = .readCell sp a :: rest →
        (a < n → step s = .next { s with pending := rest }) ∧
        (n ≤ a → step s = .refused (.noSuchCell sp a)))) ∧
    (s.pending = .readCell .msg a :: rest → step s = .refused (.unreadableSpace .msg))

/-- R37: spaces do not alias; R49: a read returns the value last written. That a cell never written, `TAB` before BUILD included,
reads the same before and after is the model's choice, log 4 (U3 lets such a read be a fresh draw); for `OUT` at or beyond `OUT_LEN`, log 13. -/
def Obligations.HostWrittenCellsReadBackAlone : Prop :=
  ∀ (s : State) (rest : List HostAction) (a : Nat) (v : Byte),
    (s.pending = .writeCell .car a v :: rest → a < s.sampleCount →
      ∃ t, step s = .next t ∧ hostReadCell t .car a = .ok v.toNat ∧
        ∀ sp b, ¬ (sp = .car ∧ b = a) → t.cell sp b = s.cell sp b) ∧
    (s.pending = .writeCell .msg a v :: rest → a < s.msgLen →
      ∃ t, step s = .next t ∧ t.messageByte a = v ∧
        ∀ sp b, ¬ (sp = .msg ∧ b = a) → t.cell sp b = s.cell sp b)

/-- R42 and R66. -/
def Obligations.HostReadsTheMatrixFromHrom : Prop :=
  ∀ (s : State) (r c : Nat),
    (r < 3 → c < 7 →
      hostReadCell s .hrom (7 * r + c) = .ok (if s.config.h.mat.bit r c then 1 else 0)) ∧
    ∀ a, 21 ≤ a → hostReadCell s .hrom a = .error (.noSuchCell .hrom a)

/-- R109, marked derived in the spec. -/
def Obligations.CapacityIsNecessaryNotSufficient : Prop :=
  (∀ s t : State, exec .encode s = .next t → t.status = .ok →
      s.msgLen ≤ max 1 s.sampleCount - 1 ∧ s.msgLen ≤ s.sampleCount / 7) ∧
    (∀ n : Nat, 1 ≤ n → n / 7 ≤ n - 1 ∧ (n / 7 = n - 1 ↔ n = 1)) ∧
    ∀ s : State, 2 ≤ s.sampleCount → s.msgLen = max 1 s.sampleCount - 1 → s.AsciiMessage →
      exec .encode s = .next { s with status := .overrun }

/-- R72, `LOAD`: index 0 first, every index must exist. One write a step is log 12. -/
def Obligations.LoadStatementStoresItsBytes : Prop :=
  ∀ (s : State) (bs : List Byte) (rest : List HostAction),
    (s.pending = (Stmt.load .car bs).actions ++ rest → bs.length ≤ s.sampleCount →
      ∃ t, Host.Core.run Sys2Proof.core bs.length s = .next t ∧ t = { s with car := t.car, pending := rest } ∧
        (∀ (i : Nat) (b : Byte), bs[i]? = some b → t.sample i = b) ∧
        ∀ a, bs.length ≤ a → t.sample a = s.sample a) ∧
    (s.pending = (Stmt.load .msg bs).actions ++ rest → bs.length ≤ s.msgLen →
      ∃ t, Host.Core.run Sys2Proof.core bs.length s = .next t ∧ t = { s with msg := t.msg, pending := rest } ∧
        (∀ (i : Nat) (b : Byte), bs[i]? = some b → t.messageByte i = b) ∧
        ∀ a, bs.length ≤ a → t.messageByte a = s.messageByte a)

/-- R11 and R89: the model refuses a configuration without `WF(H)`. -/
def Obligations.WellFormedMatricesAreAdmitted : Prop :=
  ∀ m : ParityMatrix,
    (∀ h, admitMatrix m = some h → h.mat = m ∧ m.wf = true) ∧
      (m.wf = true → ∃ h, admitMatrix m = some h ∧ h.mat = m) ∧ (m.wf = false → admitMatrix m = none)
end

