-- ==== Sys2Proof/Laws/BitField.lean ====
section
/-! SUPPORT. The laws of the bit-field functions that the later laws cite. -/

namespace Sys2Proof.Machine

/-- The packing of `u` reads the positions of `POS_U`, most significant first (R14, R76). -/
theorem classIdx_eq_posU (w : BitVector7) :
    (classIdx w).toNat = posU.foldl (fun n k => 2 * n + (w.pos k).toNat) 0 := by
  obtain ⟨a, b, c, d, e, f, g⟩ := w
  revert c e f g
  simp only [posU, BitVector7.pos, List.foldl, classIdx]
  decide

/-- The packing of `v` reads the positions of `POS_V`, most significant first (R14, R78). -/
theorem target_eq_posV (w : BitVector7) :
    (target w).toNat = posV.foldl (fun n k => 2 * n + (w.pos k).toNat) 0 := by
  obtain ⟨a, b, c, d, e, f, g⟩ := w
  revert a b d
  simp only [posV, BitVector7.pos, List.foldl, target]
  decide

/-- `CLASSIDX` and `UBITS` are inverse (R77). -/
theorem classIdx_eq_iff (w : BitVector7) (u : ClassIndex) :
    classIdx w = u ↔ (w.b2, w.b4, w.b5, w.b6) = ubits u := by
  obtain ⟨a, b, c, d, e, f, g⟩ := w
  revert c e f g u
  simp only [classIdx, ubits]
  decide

theorem packV_vbits (v : TargetValue) : packV (vbits v) = v := by
  revert v
  simp only [packV, vbits]
  decide

theorem vbits_packV (t : BitVector3) : vbits (packV t) = t := by
  obtain ⟨a, b, c⟩ := t
  revert a b c
  simp only [packV, vbits]
  decide

theorem target_eq_packV (w : BitVector7) : target w = packV ⟨w.b0, w.b1, w.b3⟩ := rfl

set_option maxRecDepth 4000 in
/-- `PACK7` undoes `BITS7` below 128 (R75). -/
theorem pack7_bits7 : ∀ x, x < 128 → pack7 (bits7 x) = x := by decide

/-- `BITS7` undoes `PACK7` (R75). -/
theorem bits7_pack7 (w : BitVector7) : bits7 (pack7 w) = w := by
  obtain ⟨a, b, c, d, e, f, g⟩ := w
  revert a b c d e f g
  decide

/-- `BITS7` reads bits 6 to 0 only (R74). -/
theorem bits7_mod (x : Nat) : bits7 (x % 128) = bits7 x := by
  have h : ∀ k, k < 7 → (x % 2 ^ 7).testBit k = x.testBit k := fun k hk => by
    rw [Nat.testBit_mod_two_pow]; simp [hk]
  simp only [bits7, show (128 : Nat) = 2 ^ 7 from rfl, h 0 (by omega), h 1 (by omega), h 2 (by omega),
    h 3 (by omega), h 4 (by omega), h 5 (by omega), h 6 (by omega)]

/-- The vector of an entry is the vector of the candidate it came from (R60). -/
theorem bits7_entry (i : Nat) : bits7 (BitVec.ofNat 7 i).toNat = bits7 i := by
  rw [BitVec.toNat_ofNat]
  exact bits7_mod i

theorem pack7_lt (w : BitVector7) : pack7 w < 128 := by
  obtain ⟨a, b, c, d, e, f, g⟩ := w
  have := a.toNat_le; have := b.toNat_le; have := c.toNat_le; have := d.toNat_le
  have := e.toNat_le; have := f.toNat_le; have := g.toNat_le
  simp only [pack7]
  omega

theorem tableIndex_lt (u : ClassIndex) (v : TargetValue) : tableIndex u v < nVec := by
  have := u.isLt
  have := v.isLt
  simp only [tableIndex, nTarget, nVec]
  omega

theorem tableIndex_injective {u u' : ClassIndex} {v v' : TargetValue} (h : tableIndex u v = tableIndex u' v') :
    u = u' ∧ v = v' := by
  have := u.isLt
  have := v.isLt
  have := u'.isLt
  have := v'.isLt
  simp only [tableIndex, nTarget] at h
  exact ⟨BitVec.eq_of_toNat_eq (by omega), BitVec.eq_of_toNat_eq (by omega)⟩

/-- The syndrome of a vector is that of its free positions plus the part its class index fixes (R88). -/
theorem syndrome_eq_add (m : ParityMatrix) (w : BitVector7) :
    syndrome m w =
      (syndrome m ⟨w.b0, w.b1, false, w.b3, false, false, false⟩).add
        (fixedSyndrome m (w.b2, w.b4, w.b5, w.b6)) := by
  have h : ∀ r : BitVector7, rowParity r w =
      ((rowParity r ⟨w.b0, w.b1, false, w.b3, false, false, false⟩) ^^
        rowParity r ⟨false, false, w.b2, false, w.b4, w.b5, w.b6⟩) := by
    intro r
    simp only [rowParity, Bool.and_false, Bool.xor_false, Bool.false_xor]
    generalize (r.b0 && w.b0) = p, (r.b1 && w.b1) = q, (r.b2 && w.b2) = x, (r.b3 && w.b3) = y, (r.b4 && w.b4) = z
    generalize (r.b5 && w.b5) = t, (r.b6 && w.b6) = u
    revert p q x y z t u
    decide
  simp only [syndrome, fixedSyndrome, BitVector3.add, h]

@[simp] theorem lsb_lsbMerge (b : Byte) (x : Bool) : lsb (lsbMerge b x) = x := by
  revert b x
  decide

@[simp] theorem lsbMerge_lsbMerge (b : Byte) (x y : Bool) : lsbMerge (lsbMerge b x) y = lsbMerge b y := by
  cases x <;> cases y <;> revert b <;> decide

theorem lsbMerge_upper (b : Byte) (x : Bool) : lsbMerge b x >>> 1 = b >>> 1 := by
  revert b x
  decide

end Sys2Proof.Machine
end

