-- ==== Sys2Proof/Laws/State.lean ====
section
/-! SUPPORT. One lemma per field per update of the state, so that no later proof unfolds an update. -/

namespace Sys2Proof.Machine

variable (s : State)

@[simp] theorem State.withStatus_config (x : Status) : (s.withStatus x).config = s.config := rfl
@[simp] theorem State.withStatus_tab (x : Status) : (s.withStatus x).tab = s.tab := rfl
@[simp] theorem State.withStatus_tableValid (x : Status) : (s.withStatus x).tableValid = s.tableValid := rfl
@[simp] theorem State.withStatus_car (x : Status) : (s.withStatus x).car = s.car := rfl
@[simp] theorem State.withStatus_msg (x : Status) : (s.withStatus x).msg = s.msg := rfl
@[simp] theorem State.withStatus_out (x : Status) : (s.withStatus x).out = s.out := rfl
@[simp] theorem State.withStatus_sampleCount (x : Status) : (s.withStatus x).sampleCount = s.sampleCount := rfl
@[simp] theorem State.withStatus_msgLen (x : Status) : (s.withStatus x).msgLen = s.msgLen := rfl
@[simp] theorem State.withStatus_result (x : Status) : (s.withStatus x).result = s.result := rfl
@[simp] theorem State.withStatus_outLen (x : Status) : (s.withStatus x).outLen = s.outLen := rfl
@[simp] theorem State.withStatus_status (x : Status) : (s.withStatus x).status = x := rfl
@[simp] theorem State.withStatus_pending (x : Status) : (s.withStatus x).pending = s.pending := rfl
@[simp] theorem State.withStatus_draw (x : Status) : (s.withStatus x).draw = s.draw := rfl

@[simp] theorem State.withTableValid_config (x : Bool) : (s.withTableValid x).config = s.config := rfl
@[simp] theorem State.withTableValid_tab (x : Bool) : (s.withTableValid x).tab = s.tab := rfl
@[simp] theorem State.withTableValid_tableValid (x : Bool) : (s.withTableValid x).tableValid = x := rfl
@[simp] theorem State.withTableValid_car (x : Bool) : (s.withTableValid x).car = s.car := rfl
@[simp] theorem State.withTableValid_msg (x : Bool) : (s.withTableValid x).msg = s.msg := rfl
@[simp] theorem State.withTableValid_out (x : Bool) : (s.withTableValid x).out = s.out := rfl
@[simp] theorem State.withTableValid_sampleCount (x : Bool) : (s.withTableValid x).sampleCount = s.sampleCount := rfl
@[simp] theorem State.withTableValid_msgLen (x : Bool) : (s.withTableValid x).msgLen = s.msgLen := rfl
@[simp] theorem State.withTableValid_result (x : Bool) : (s.withTableValid x).result = s.result := rfl
@[simp] theorem State.withTableValid_outLen (x : Bool) : (s.withTableValid x).outLen = s.outLen := rfl
@[simp] theorem State.withTableValid_status (x : Bool) : (s.withTableValid x).status = s.status := rfl
@[simp] theorem State.withTableValid_pending (x : Bool) : (s.withTableValid x).pending = s.pending := rfl
@[simp] theorem State.withTableValid_draw (x : Bool) : (s.withTableValid x).draw = s.draw := rfl

@[simp] theorem State.withSampleCount_config (x : Nat) : (s.withSampleCount x).config = s.config := rfl
@[simp] theorem State.withSampleCount_tab (x : Nat) : (s.withSampleCount x).tab = s.tab := rfl
@[simp] theorem State.withSampleCount_tableValid (x : Nat) : (s.withSampleCount x).tableValid = s.tableValid := rfl
@[simp] theorem State.withSampleCount_car (x : Nat) : (s.withSampleCount x).car = s.car := rfl
@[simp] theorem State.withSampleCount_msg (x : Nat) : (s.withSampleCount x).msg = s.msg := rfl
@[simp] theorem State.withSampleCount_out (x : Nat) : (s.withSampleCount x).out = s.out := rfl
@[simp] theorem State.withSampleCount_sampleCount (x : Nat) : (s.withSampleCount x).sampleCount = x := rfl
@[simp] theorem State.withSampleCount_msgLen (x : Nat) : (s.withSampleCount x).msgLen = s.msgLen := rfl
@[simp] theorem State.withSampleCount_result (x : Nat) : (s.withSampleCount x).result = s.result := rfl
@[simp] theorem State.withSampleCount_outLen (x : Nat) : (s.withSampleCount x).outLen = s.outLen := rfl
@[simp] theorem State.withSampleCount_status (x : Nat) : (s.withSampleCount x).status = s.status := rfl
@[simp] theorem State.withSampleCount_pending (x : Nat) : (s.withSampleCount x).pending = s.pending := rfl
@[simp] theorem State.withSampleCount_draw (x : Nat) : (s.withSampleCount x).draw = s.draw := rfl

@[simp] theorem State.withMsgLen_config (x : Nat) : (s.withMsgLen x).config = s.config := rfl
@[simp] theorem State.withMsgLen_tab (x : Nat) : (s.withMsgLen x).tab = s.tab := rfl
@[simp] theorem State.withMsgLen_tableValid (x : Nat) : (s.withMsgLen x).tableValid = s.tableValid := rfl
@[simp] theorem State.withMsgLen_car (x : Nat) : (s.withMsgLen x).car = s.car := rfl
@[simp] theorem State.withMsgLen_msg (x : Nat) : (s.withMsgLen x).msg = s.msg := rfl
@[simp] theorem State.withMsgLen_out (x : Nat) : (s.withMsgLen x).out = s.out := rfl
@[simp] theorem State.withMsgLen_sampleCount (x : Nat) : (s.withMsgLen x).sampleCount = s.sampleCount := rfl
@[simp] theorem State.withMsgLen_msgLen (x : Nat) : (s.withMsgLen x).msgLen = x := rfl
@[simp] theorem State.withMsgLen_result (x : Nat) : (s.withMsgLen x).result = s.result := rfl
@[simp] theorem State.withMsgLen_outLen (x : Nat) : (s.withMsgLen x).outLen = s.outLen := rfl
@[simp] theorem State.withMsgLen_status (x : Nat) : (s.withMsgLen x).status = s.status := rfl
@[simp] theorem State.withMsgLen_pending (x : Nat) : (s.withMsgLen x).pending = s.pending := rfl
@[simp] theorem State.withMsgLen_draw (x : Nat) : (s.withMsgLen x).draw = s.draw := rfl

@[simp] theorem State.withResult_config (x : Nat) : (s.withResult x).config = s.config := rfl
@[simp] theorem State.withResult_tab (x : Nat) : (s.withResult x).tab = s.tab := rfl
@[simp] theorem State.withResult_tableValid (x : Nat) : (s.withResult x).tableValid = s.tableValid := rfl
@[simp] theorem State.withResult_car (x : Nat) : (s.withResult x).car = s.car := rfl
@[simp] theorem State.withResult_msg (x : Nat) : (s.withResult x).msg = s.msg := rfl
@[simp] theorem State.withResult_out (x : Nat) : (s.withResult x).out = s.out := rfl
@[simp] theorem State.withResult_sampleCount (x : Nat) : (s.withResult x).sampleCount = s.sampleCount := rfl
@[simp] theorem State.withResult_msgLen (x : Nat) : (s.withResult x).msgLen = s.msgLen := rfl
@[simp] theorem State.withResult_result (x : Nat) : (s.withResult x).result = x := rfl
@[simp] theorem State.withResult_outLen (x : Nat) : (s.withResult x).outLen = s.outLen := rfl
@[simp] theorem State.withResult_status (x : Nat) : (s.withResult x).status = s.status := rfl
@[simp] theorem State.withResult_pending (x : Nat) : (s.withResult x).pending = s.pending := rfl
@[simp] theorem State.withResult_draw (x : Nat) : (s.withResult x).draw = s.draw := rfl

@[simp] theorem State.withOutLen_config (x : Nat) : (s.withOutLen x).config = s.config := rfl
@[simp] theorem State.withOutLen_tab (x : Nat) : (s.withOutLen x).tab = s.tab := rfl
@[simp] theorem State.withOutLen_tableValid (x : Nat) : (s.withOutLen x).tableValid = s.tableValid := rfl
@[simp] theorem State.withOutLen_car (x : Nat) : (s.withOutLen x).car = s.car := rfl
@[simp] theorem State.withOutLen_msg (x : Nat) : (s.withOutLen x).msg = s.msg := rfl
@[simp] theorem State.withOutLen_out (x : Nat) : (s.withOutLen x).out = s.out := rfl
@[simp] theorem State.withOutLen_sampleCount (x : Nat) : (s.withOutLen x).sampleCount = s.sampleCount := rfl
@[simp] theorem State.withOutLen_msgLen (x : Nat) : (s.withOutLen x).msgLen = s.msgLen := rfl
@[simp] theorem State.withOutLen_result (x : Nat) : (s.withOutLen x).result = s.result := rfl
@[simp] theorem State.withOutLen_outLen (x : Nat) : (s.withOutLen x).outLen = x := rfl
@[simp] theorem State.withOutLen_status (x : Nat) : (s.withOutLen x).status = s.status := rfl
@[simp] theorem State.withOutLen_pending (x : Nat) : (s.withOutLen x).pending = s.pending := rfl
@[simp] theorem State.withOutLen_draw (x : Nat) : (s.withOutLen x).draw = s.draw := rfl

@[simp] theorem State.withTab_config (x : Cells Entry) : (s.withTab x).config = s.config := rfl
@[simp] theorem State.withTab_tab (x : Cells Entry) : (s.withTab x).tab = x := rfl
@[simp] theorem State.withTab_tableValid (x : Cells Entry) : (s.withTab x).tableValid = s.tableValid := rfl
@[simp] theorem State.withTab_car (x : Cells Entry) : (s.withTab x).car = s.car := rfl
@[simp] theorem State.withTab_msg (x : Cells Entry) : (s.withTab x).msg = s.msg := rfl
@[simp] theorem State.withTab_out (x : Cells Entry) : (s.withTab x).out = s.out := rfl
@[simp] theorem State.withTab_sampleCount (x : Cells Entry) : (s.withTab x).sampleCount = s.sampleCount := rfl
@[simp] theorem State.withTab_msgLen (x : Cells Entry) : (s.withTab x).msgLen = s.msgLen := rfl
@[simp] theorem State.withTab_result (x : Cells Entry) : (s.withTab x).result = s.result := rfl
@[simp] theorem State.withTab_outLen (x : Cells Entry) : (s.withTab x).outLen = s.outLen := rfl
@[simp] theorem State.withTab_status (x : Cells Entry) : (s.withTab x).status = s.status := rfl
@[simp] theorem State.withTab_pending (x : Cells Entry) : (s.withTab x).pending = s.pending := rfl
@[simp] theorem State.withTab_draw (x : Cells Entry) : (s.withTab x).draw = s.draw := rfl

@[simp] theorem State.withCar_config (x : Memory) : (s.withCar x).config = s.config := rfl
@[simp] theorem State.withCar_tab (x : Memory) : (s.withCar x).tab = s.tab := rfl
@[simp] theorem State.withCar_tableValid (x : Memory) : (s.withCar x).tableValid = s.tableValid := rfl
@[simp] theorem State.withCar_car (x : Memory) : (s.withCar x).car = x := rfl
@[simp] theorem State.withCar_msg (x : Memory) : (s.withCar x).msg = s.msg := rfl
@[simp] theorem State.withCar_out (x : Memory) : (s.withCar x).out = s.out := rfl
@[simp] theorem State.withCar_sampleCount (x : Memory) : (s.withCar x).sampleCount = s.sampleCount := rfl
@[simp] theorem State.withCar_msgLen (x : Memory) : (s.withCar x).msgLen = s.msgLen := rfl
@[simp] theorem State.withCar_result (x : Memory) : (s.withCar x).result = s.result := rfl
@[simp] theorem State.withCar_outLen (x : Memory) : (s.withCar x).outLen = s.outLen := rfl
@[simp] theorem State.withCar_status (x : Memory) : (s.withCar x).status = s.status := rfl
@[simp] theorem State.withCar_pending (x : Memory) : (s.withCar x).pending = s.pending := rfl
@[simp] theorem State.withCar_draw (x : Memory) : (s.withCar x).draw = s.draw := rfl

@[simp] theorem State.withMsg_config (x : Memory) : (s.withMsg x).config = s.config := rfl
@[simp] theorem State.withMsg_tab (x : Memory) : (s.withMsg x).tab = s.tab := rfl
@[simp] theorem State.withMsg_tableValid (x : Memory) : (s.withMsg x).tableValid = s.tableValid := rfl
@[simp] theorem State.withMsg_car (x : Memory) : (s.withMsg x).car = s.car := rfl
@[simp] theorem State.withMsg_msg (x : Memory) : (s.withMsg x).msg = x := rfl
@[simp] theorem State.withMsg_out (x : Memory) : (s.withMsg x).out = s.out := rfl
@[simp] theorem State.withMsg_sampleCount (x : Memory) : (s.withMsg x).sampleCount = s.sampleCount := rfl
@[simp] theorem State.withMsg_msgLen (x : Memory) : (s.withMsg x).msgLen = s.msgLen := rfl
@[simp] theorem State.withMsg_result (x : Memory) : (s.withMsg x).result = s.result := rfl
@[simp] theorem State.withMsg_outLen (x : Memory) : (s.withMsg x).outLen = s.outLen := rfl
@[simp] theorem State.withMsg_status (x : Memory) : (s.withMsg x).status = s.status := rfl
@[simp] theorem State.withMsg_pending (x : Memory) : (s.withMsg x).pending = s.pending := rfl
@[simp] theorem State.withMsg_draw (x : Memory) : (s.withMsg x).draw = s.draw := rfl

@[simp] theorem State.withOut_config (x : Memory) : (s.withOut x).config = s.config := rfl
@[simp] theorem State.withOut_tab (x : Memory) : (s.withOut x).tab = s.tab := rfl
@[simp] theorem State.withOut_tableValid (x : Memory) : (s.withOut x).tableValid = s.tableValid := rfl
@[simp] theorem State.withOut_car (x : Memory) : (s.withOut x).car = s.car := rfl
@[simp] theorem State.withOut_msg (x : Memory) : (s.withOut x).msg = s.msg := rfl
@[simp] theorem State.withOut_out (x : Memory) : (s.withOut x).out = x := rfl
@[simp] theorem State.withOut_sampleCount (x : Memory) : (s.withOut x).sampleCount = s.sampleCount := rfl
@[simp] theorem State.withOut_msgLen (x : Memory) : (s.withOut x).msgLen = s.msgLen := rfl
@[simp] theorem State.withOut_result (x : Memory) : (s.withOut x).result = s.result := rfl
@[simp] theorem State.withOut_outLen (x : Memory) : (s.withOut x).outLen = s.outLen := rfl
@[simp] theorem State.withOut_status (x : Memory) : (s.withOut x).status = s.status := rfl
@[simp] theorem State.withOut_pending (x : Memory) : (s.withOut x).pending = s.pending := rfl
@[simp] theorem State.withOut_draw (x : Memory) : (s.withOut x).draw = s.draw := rfl

@[simp] theorem State.withPending_config (x : List HostAction) : (s.withPending x).config = s.config := rfl
@[simp] theorem State.withPending_tab (x : List HostAction) : (s.withPending x).tab = s.tab := rfl
@[simp] theorem State.withPending_tableValid (x : List HostAction) : (s.withPending x).tableValid = s.tableValid := rfl
@[simp] theorem State.withPending_car (x : List HostAction) : (s.withPending x).car = s.car := rfl
@[simp] theorem State.withPending_msg (x : List HostAction) : (s.withPending x).msg = s.msg := rfl
@[simp] theorem State.withPending_out (x : List HostAction) : (s.withPending x).out = s.out := rfl
@[simp] theorem State.withPending_sampleCount (x : List HostAction) : (s.withPending x).sampleCount = s.sampleCount := rfl
@[simp] theorem State.withPending_msgLen (x : List HostAction) : (s.withPending x).msgLen = s.msgLen := rfl
@[simp] theorem State.withPending_result (x : List HostAction) : (s.withPending x).result = s.result := rfl
@[simp] theorem State.withPending_outLen (x : List HostAction) : (s.withPending x).outLen = s.outLen := rfl
@[simp] theorem State.withPending_status (x : List HostAction) : (s.withPending x).status = s.status := rfl
@[simp] theorem State.withPending_pending (x : List HostAction) : (s.withPending x).pending = x := rfl
@[simp] theorem State.withPending_draw (x : List HostAction) : (s.withPending x).draw = s.draw := rfl

@[simp] theorem State.afterReset_config (c : Config) (n : Nat) (acts : List HostAction) :
    (State.afterReset c n acts).config = c := rfl
@[simp] theorem State.afterReset_tab (c : Config) (n : Nat) (acts : List HostAction) :
    (State.afterReset c n acts).tab = [] := rfl
@[simp] theorem State.afterReset_tableValid (c : Config) (n : Nat) (acts : List HostAction) :
    (State.afterReset c n acts).tableValid = false := rfl
@[simp] theorem State.afterReset_car (c : Config) (n : Nat) (acts : List HostAction) :
    (State.afterReset c n acts).car = [] := rfl
@[simp] theorem State.afterReset_msg (c : Config) (n : Nat) (acts : List HostAction) :
    (State.afterReset c n acts).msg = [] := rfl
@[simp] theorem State.afterReset_out (c : Config) (n : Nat) (acts : List HostAction) :
    (State.afterReset c n acts).out = [] := rfl
@[simp] theorem State.afterReset_sampleCount (c : Config) (n : Nat) (acts : List HostAction) :
    (State.afterReset c n acts).sampleCount = 0 := rfl
@[simp] theorem State.afterReset_msgLen (c : Config) (n : Nat) (acts : List HostAction) :
    (State.afterReset c n acts).msgLen = 0 := rfl
@[simp] theorem State.afterReset_result (c : Config) (n : Nat) (acts : List HostAction) :
    (State.afterReset c n acts).result = 0 := rfl
@[simp] theorem State.afterReset_outLen (c : Config) (n : Nat) (acts : List HostAction) :
    (State.afterReset c n acts).outLen = 0 := rfl
@[simp] theorem State.afterReset_status (c : Config) (n : Nat) (acts : List HostAction) :
    (State.afterReset c n acts).status = .ok := rfl
@[simp] theorem State.afterReset_pending (c : Config) (n : Nat) (acts : List HostAction) :
    (State.afterReset c n acts).pending = acts := rfl
@[simp] theorem State.afterReset_draw (c : Config) (n : Nat) (acts : List HostAction) :
    (State.afterReset c n acts).draw = n := rfl

end Sys2Proof.Machine
end

