-- ==== Sys2Proof/Laws/Bus.lean ====
section
/-! SUPPORT. What the host's accesses do, one lemma per access and outcome. -/

namespace Sys2Proof.Machine

variable {s : State} {a v : Nat} {b : Byte}

theorem hostWriteReg_sampleCount_of_fits (h : s.config.fits v = true) :
    hostWriteReg .sampleCount v s = .next (s.withSampleCount v) := if_pos h

theorem hostWriteReg_msgLen_of_fits (h : s.config.fits v = true) :
    hostWriteReg .msgLen v s = .next (s.withMsgLen v) := if_pos h

theorem hostWriteReg_sampleCount_of_not_fits (h : s.config.fits v = false) :
    hostWriteReg .sampleCount v s = .refused (.lengthTooWide v) := if_neg (by simp [h])

theorem hostWriteReg_msgLen_of_not_fits (h : s.config.fits v = false) :
    hostWriteReg .msgLen v s = .refused (.lengthTooWide v) := if_neg (by simp [h])

theorem hostWriteCell_car_of_lt (h : a < s.sampleCount) :
    hostWriteCell .car a b s = .next (s.withCar (Cells.write s.car a b)) := if_pos h

theorem hostWriteCell_car_of_ge (h : s.sampleCount ≤ a) :
    hostWriteCell .car a b s = .refused (.noSuchCell .car a) := if_neg (not_lt.2 h)

theorem hostWriteCell_msg_of_lt (h : a < s.msgLen) :
    hostWriteCell .msg a b s = .next (s.withMsg (Cells.write s.msg a b)) := if_pos h

theorem hostWriteCell_msg_of_ge (h : s.msgLen ≤ a) :
    hostWriteCell .msg a b s = .refused (.noSuchCell .msg a) := if_neg (not_lt.2 h)

/-- A read of a readable space returns the cell's content where the cell exists and is refused elsewhere (R37, R46). -/
theorem hostReadCell_eq {sp : Space} (h : sp.hostReadable = true) :
    hostReadCell s sp a =
      if a < s.cellCount sp then .ok (s.cell sp a) else .error (.noSuchCell sp a) := by
  simp [hostReadCell, h]

@[simp] theorem State.cell_car (s : State) (a : Nat) : s.cell .car a = (s.sample a).toNat := rfl
@[simp] theorem State.cell_msg (s : State) (a : Nat) : s.cell .msg a = (s.messageByte a).toNat := rfl
@[simp] theorem State.cell_out (s : State) (a : Nat) : s.cell .out a = (s.outByte a).toNat := rfl
@[simp] theorem State.cell_tab (s : State) (a : Nat) : s.cell .tab a = (s.entry a).toNat := rfl
@[simp] theorem State.cell_hrom (s : State) (a : Nat) : s.cell .hrom a = (hromBit s.config.h.mat a).toNat := rfl

/-- What the host reads of a cell that exists. -/
theorem hostReadCell_of_lt {sp : Space} (h : sp.hostReadable = true) (ha : a < s.cellCount sp) :
    hostReadCell s sp a = .ok (s.cell sp a) := by
  rw [hostReadCell_eq h, if_pos ha]

theorem readOutcome_ok {r : Except Refusal Nat} {n : Nat} (h : r = .ok n) : readOutcome r s = .next s := by
  rw [h]; rfl

theorem readOutcome_error {r : Except Refusal Nat} {e : Refusal} (h : r = .error e) :
    readOutcome r s = .refused e := by
  rw [h]; rfl

end Sys2Proof.Machine
end

