-- ==== Sys2Proof/Laws/Cells.lean ====
section
/-! SUPPORT. The laws of spaces: what a rewrite of one cell does to reads, and that it keeps the canonical form. -/

namespace Sys2Proof.Machine

variable {α : Type}

@[simp] theorem Cells.read?_nil (a : Nat) : read? ([] : Cells α) a = none := rfl

theorem Cells.read?_cons (c : Nat × α) (m : Cells α) (a : Nat) :
    read? (c :: m) a = if a < c.1 then none else if a = c.1 then some c.2 else read? m a := rfl

theorem Cells.modify_cons (f : Option α → α) (a : Nat) (c : Nat × α) (m : Cells α) :
    modify f a (c :: m) =
      if a < c.1 then (a, f none) :: c :: m
      else if a = c.1 then (a, f (some c.2)) :: m else c :: modify f a m := rfl

@[simp] theorem Cells.read?_modify_same (f : Option α → α) (a : Nat) (m : Cells α) :
    read? (modify f a m) a = some (f (read? m a)) := by
  induction m with
  | nil => simp [modify, read?]
  | cons c m ih =>
    rw [modify_cons, read?_cons]
    split_ifs with h₁ h₂ <;> simp_all [read?_cons]

theorem Cells.read?_modify_other (f : Option α → α) {a b : Nat} (hb : b ≠ a) (m : Cells α) :
    read? (modify f a m) b = read? m b := by
  induction m with
  | nil =>
    simp only [modify, read?]
    split_ifs <;> simp_all
  | cons c m ih =>
    rw [modify_cons]
    split_ifs with h₁ h₂
    · rw [read?_cons, read?_cons]
      split_ifs <;> first | rfl | omega
    · rw [read?_cons, read?_cons]
      split_ifs <;> first | rfl | omega
    · rw [read?_cons, read?_cons, ih]

/-- All that a rewrite of one cell does to reads. -/
theorem Cells.read?_modify (f : Option α → α) (a b : Nat) (m : Cells α) :
    read? (modify f a m) b = if b = a then some (f (read? m a)) else read? m b := by
  split_ifs with h
  · rw [h, read?_modify_same]
  · exact read?_modify_other f h m

/-- All that a write of one cell does to reads. -/
theorem Cells.read?_write (m : Cells α) (a b : Nat) (v : α) :
    read? (write m a v) b = if b = a then some v else read? m b := by
  rw [write, read?_modify]

/-- A rewrite that leaves the cell's content as it was leaves the whole space as it was. -/
theorem Cells.modify_of_read? {f : Option α → α} {a : Nat} {m : Cells α} {v : α} (h : read? m a = some v)
    (hf : f (some v) = v) : modify f a m = m := by
  induction m with
  | nil => simp at h
  | cons c m ih =>
    rw [read?_cons] at h
    rw [modify_cons]
    split_ifs at h ⊢ with h₁ h₂
    · simp only [Option.some.injEq] at h
      rw [h, hf, ← h, h₂]
    · rw [ih h]

theorem Cells.write_of_read? {a : Nat} {m : Cells α} {v : α} (h : read? m a = some v) : write m a v = m :=
  modify_of_read? h rfl

theorem Cells.mem_modify {f : Option α → α} {a : Nat} {m : Cells α} {c : Nat × α} (h : c ∈ modify f a m) :
    c ∈ m ∨ c.1 = a := by
  induction m with
  | nil => simp_all [modify]
  | cons d m ih =>
    rw [modify_cons] at h
    split_ifs at h with h₁ h₂
    · rcases List.mem_cons.1 h with rfl | h
      · exact .inr rfl
      · exact .inl h
    · rcases List.mem_cons.1 h with rfl | h
      · exact .inr rfl
      · exact .inl (List.mem_cons_of_mem _ h)
    · rcases List.mem_cons.1 h with rfl | h
      · exact .inl List.mem_cons_self
      · exact (ih h).imp (List.mem_cons_of_mem _) id

theorem Cells.mem_write {a : Nat} {m : Cells α} {v : α} {c : Nat × α} (h : c ∈ write m a v) :
    c ∈ m ∨ c = (a, v) := by
  induction m with
  | nil => simp_all [write, modify]
  | cons d m ih =>
    rw [write, modify_cons] at h
    split_ifs at h with h₁ h₂
    · exact (List.mem_cons.1 h).symm.imp id id
    · exact (List.mem_cons.1 h).symm.imp (List.mem_cons_of_mem _) id
    · rcases List.mem_cons.1 h with rfl | h
      · exact .inl List.mem_cons_self
      · exact (ih h).imp (List.mem_cons_of_mem _) id

theorem Cells.wf_cons (c : Nat × α) (m : Cells α) : wf (c :: m) = true ↔ (∀ d ∈ m, c.1 < d.1) ∧ wf m = true := by
  simp [wf]

@[simp] theorem Cells.wf_nil : wf ([] : Cells α) = true := rfl

/-- Every rewrite of a cell keeps the canonical form. -/
theorem Cells.wf_modify (f : Option α → α) (a : Nat) {m : Cells α} (h : wf m = true) : wf (modify f a m) = true := by
  induction m with
  | nil => simp [modify, wf]
  | cons c m ih =>
    rw [wf_cons] at h
    rw [modify_cons]
    split_ifs with h₁ h₂
    · rw [wf_cons, wf_cons]
      refine ⟨fun d hd => ?_, h⟩
      rcases List.mem_cons.1 hd with rfl | hd
      · exact h₁
      · exact h₁.trans (h.1 d hd)
    · rw [wf_cons]
      exact ⟨fun d hd => h₂ ▸ h.1 d hd, h.2⟩
    · rw [wf_cons]
      refine ⟨fun d hd => ?_, ih h.2⟩
      rcases mem_modify hd with hd | hd
      · exact h.1 d hd
      · omega

theorem Cells.wf_write (a : Nat) (v : α) {m : Cells α} (h : wf m = true) : wf (write m a v) = true := wf_modify _ a h

/-- A cell that is read is listed. -/
theorem Cells.mem_of_read? {m : Cells α} {a : Nat} {v : α} (h : read? m a = some v) : (a, v) ∈ m := by
  induction m with
  | nil => simp at h
  | cons c m ih =>
    rw [read?_cons] at h
    split_ifs at h with h₁ h₂
    · simp only [Option.some.injEq] at h
      rw [h₂, ← h]
      exact List.mem_cons_self
    · exact List.mem_cons_of_mem _ (ih h)

theorem Cells.read?_of_lt_all {m : Cells α} {a : Nat} (h : ∀ d ∈ m, a < d.1) : read? m a = none := by
  cases m with
  | nil => rfl
  | cons c m => rw [read?_cons, if_pos (h c List.mem_cons_self)]

/-- A listed cell of a canonical space is read. -/
theorem Cells.read?_of_mem {m : Cells α} (hm : wf m = true) {c : Nat × α} (h : c ∈ m) : read? m c.1 = some c.2 := by
  induction m with
  | nil => simp at h
  | cons d m ih =>
    rw [wf_cons] at hm
    rw [read?_cons]
    rcases List.mem_cons.1 h with rfl | h
    · simp
    · have := hm.1 c h
      rw [if_neg (by omega), if_neg (by omega), ih hm.2 h]

/-- Canonical spaces that read alike are equal. -/
theorem Cells.ext_read? {m n : Cells α} (hm : wf m = true) (hn : wf n = true)
    (h : ∀ a, read? m a = read? n a) : m = n := by
  induction m generalizing n with
  | nil =>
    cases n with
    | nil => rfl
    | cons d n => simpa [read?_cons] using h d.1
  | cons c m ih =>
    cases n with
    | nil => simpa [read?_cons] using h c.1
    | cons d n =>
      rw [wf_cons] at hm hn
      have hcd : c = d := by
        have hc := h c.1
        have hd := h d.1
        simp only [read?_cons] at hc hd
        rcases lt_trichotomy c.1 d.1 with hlt | heq | hgt
        · simp [hlt] at hc
        · simp only [heq, lt_self_iff_false, if_false, if_true, Option.some.injEq] at hc
          exact Prod.ext heq hc
        · simp [hgt] at hd
      subst hcd
      rw [ih hm.2 hn.2]
      intro a
      rcases lt_or_ge c.1 a with hlt | hge
      · have := h a
        simpa [read?_cons, hlt.ne', hlt.le, not_lt.2 hlt.le] using this
      · rw [read?_of_lt_all (fun e he => lt_of_le_of_lt hge (hm.1 e he)),
          read?_of_lt_all (fun e he => lt_of_le_of_lt hge (hn.1 e he))]

end Sys2Proof.Machine
end

