-- ==== Sys2Proof/Laws/Ops.lean ====
section
/-! SUPPORT. What the shared operations do: the end of an operation, and reads of the spaces. -/

namespace Sys2Proof.Machine

/-- After reset every space is in canonical form. -/
theorem State.afterReset_wf (c : Config) (n : Nat) (acts : List HostAction) :
    Memory.wf (State.afterReset c n acts).car = true ∧ Memory.wf (State.afterReset c n acts).msg = true ∧
      Memory.wf (State.afterReset c n acts).out = true ∧ Cells.wf (State.afterReset c n acts).tab = true :=
  ⟨rfl, rfl, rfl, rfl⟩

theorem raiseFailure_eq (e : Failure) (s : State) : raiseFailure e s = { s with status := e.status } := rfl

theorem succeed_eq (s : State) : succeed s = { s with status := .ok } := rfl

/-- How an operation ends: with its result and `OK`, or with nothing changed but the status (R116, R117). -/
theorem finish_cases (failure : Option Failure) (s result : State) :
    (failure = none ∧ finish failure s result = { result with status := .ok }) ∨
      ∃ e, failure = some e ∧ finish failure s result = { s with status := e.status } := by
  cases failure with
  | none => exact .inl ⟨rfl, rfl⟩
  | some e => exact .inr ⟨e, rfl, rfl⟩

theorem Failure.status_ne_ok (e : Failure) : e.status ≠ .ok := by
  cases e <;> simp [Failure.status]

theorem State.sample_congr {s t : State} (hc : t.car = s.car) (hd : t.draw = s.draw) (a : Nat) :
    t.sample a = s.sample a := by
  rw [State.sample, State.sample, hc, hd]

theorem State.messageByte_congr {s t : State} (hc : t.msg = s.msg) (hd : t.draw = s.draw) (i : Nat) :
    t.messageByte i = s.messageByte i := by
  rw [State.messageByte, State.messageByte, hc, hd]

theorem State.messageIsAscii_iff (s : State) :
    s.messageIsAscii = true ↔ ∀ i, i < s.msgLen → (s.messageByte i).toNat < 128 := by
  simp [State.messageIsAscii]

/-- Which check of ENCODE an operand state fails (R118). -/
theorem State.encodeFailure_cases (s : State) :
    (s.inputInvalid = true ∧ s.encodeFailure = some .invalidInput) ∨
    (s.inputInvalid = false ∧ s.sampleCount < 7 * s.msgLen ∧ s.encodeFailure = some .overrun) ∨
    (s.inputInvalid = false ∧ 7 * s.msgLen ≤ s.sampleCount ∧ s.tableValid = false ∧ s.config.lazyBuild = false ∧
      s.encodeFailure = some .noTable) ∨
    (s.inputInvalid = false ∧ 7 * s.msgLen ≤ s.sampleCount ∧ (s.tableValid = true ∨ s.config.lazyBuild = true) ∧
      s.encodeFailure = none) := by
  unfold State.encodeFailure samplesFor group
  cases s.inputInvalid <;> by_cases h : s.sampleCount < 7 * s.msgLen <;> cases s.tableValid <;>
    cases s.config.lazyBuild <;> simp_all

theorem State.decodeFailure_cases (s : State) :
    (s.sampleCount < 7 * s.msgLen ∧ s.decodeFailure = some .insufficientCarrier) ∨
      (7 * s.msgLen ≤ s.sampleCount ∧ s.decodeFailure = none) := by
  unfold State.decodeFailure samplesFor group
  by_cases h : s.sampleCount < 7 * s.msgLen
  · exact .inl ⟨h, if_pos h⟩
  · exact .inr ⟨not_lt.1 h, if_neg h⟩

end Sys2Proof.Machine
end

