-- ==== Sys2Proof/Laws/Operations.lean ====
section
/-! SUPPORT. What each loop of the operations does to the spaces, and what one step can do. -/

namespace Sys2Proof.Machine

/-- The checks of R93, read as the four conditions. -/
theorem State.inputInvalid_iff (s : State) : s.inputInvalid = true ↔ s.InvalidInput := by
  have h : s.messageIsAscii = false ↔ ∃ i, i < s.msgLen ∧ 128 ≤ (s.messageByte i).toNat := by
    rw [← Bool.not_eq_true, State.messageIsAscii_iff]
    simp only [not_forall, not_lt, exists_prop]
  rw [State.inputInvalid, State.InvalidInput]
  simp only [Bool.or_eq_true, beq_iff_eq, decide_eq_true_eq, Bool.not_eq_true', or_assoc, h]
  rfl

theorem fileCandidates_zero (h : WfMatrix) (t : Cells Entry) : fileCandidates h 0 t = t := rfl

theorem fileCandidates_succ (h : WfMatrix) (i : Nat) (t : Cells Entry) :
    fileCandidates h (i + 1) t =
      Cells.write (fileCandidates h i t) (candidateIndex h i) (BitVec.ofNat 7 i) := rfl

-- The loop of BUILD is unfolded by its two equations above only: Lean would otherwise run its 128 rounds on a symbolic `H`.
seal fileCandidates

theorem buildTable_eq (s : State) :
    buildTable s =
      { s with tab := fileCandidates s.config.h nVec s.tab, tableValid := true, status := .ok } := rfl

theorem candidateIndex_lt (h : WfMatrix) (i : Nat) : candidateIndex h i < nVec := tableIndex_lt _ _

/-- The loop of BUILD keeps the canonical form. -/
theorem fileCandidates_wf (h : WfMatrix) (n : Nat) {t : Cells Entry} (ht : Cells.wf t = true) :
    Cells.wf (fileCandidates h n t) = true := by
  induction n with
  | zero => rwa [fileCandidates_zero]
  | succ i ih =>
    rw [fileCandidates_succ]
    exact Cells.wf_write _ _ ih

/-- The loop of BUILD lists only cells of `TAB` that exist. -/
theorem fileCandidates_inRange (h : WfMatrix) (n : Nat) {t : Cells Entry} (ht : ∀ c ∈ t, c.1 < nVec) :
    ∀ c ∈ fileCandidates h n t, c.1 < nVec := by
  induction n with
  | zero => rwa [fileCandidates_zero]
  | succ i ih =>
    intro c hc
    rw [fileCandidates_succ] at hc
    rcases Cells.mem_modify hc with hc | hc
    · exact ih c hc
    · exact hc ▸ candidateIndex_lt h i

theorem builtTable_wf (h : WfMatrix) : Cells.wf (builtTable h) = true := fileCandidates_wf h _ rfl

theorem builtTable_inRange (h : WfMatrix) : ∀ c ∈ builtTable h, c.1 < nVec :=
  fileCandidates_inRange h _ (by simp)

/-- What a read finds after one more candidate is filed. -/
theorem read?_fileCandidates_succ (h : WfMatrix) (i a : Nat) (t : Cells Entry) :
    Cells.read? (fileCandidates h (i + 1) t) a =
      if a = candidateIndex h i then some (BitVec.ofNat 7 i) else Cells.read? (fileCandidates h i t) a := by
  rw [fileCandidates_succ, Cells.read?_write]

/-- BUILD reaches no cell beyond the 128 of `TAB`. -/
theorem read?_fileCandidates_of_ge (h : WfMatrix) (n : Nat) {a : Nat} (ha : nVec ≤ a) (t : Cells Entry) :
    Cells.read? (fileCandidates h n t) a = Cells.read? t a := by
  induction n with
  | zero => rw [fileCandidates_zero]
  | succ i ih =>
    have := candidateIndex_lt h i
    rw [read?_fileCandidates_succ, ih, if_neg (by omega)]

/-- What a read finds after the read-modify-write of one sample. -/
theorem read?_mergeSample (draw a b : Nat) (x : Bool) (m : Memory) :
    Cells.read? (mergeSample draw a x m) b =
      if b = a then some (lsbMerge ((Cells.read? m a).getD (Config.freeSample draw a)) x)
      else Cells.read? m b :=
  Cells.read?_modify _ _ _ _

theorem mergeSample_wf (draw a : Nat) (x : Bool) {m : Memory} (h : Memory.wf m = true) :
    Memory.wf (mergeSample draw a x m) = true := Cells.wf_modify _ _ h

/-- What a read finds after the samples at the relative positions `ks` of one group are merged, each position once. -/
theorem read?_foldl_mergeSample (draw i b : Nat) (w : BitVector7) (ks : List Nat) (hks : ks.Nodup) (m : Memory) :
    Cells.read? (ks.foldl (fun m k => mergeSample draw (sampleIndex i k) (w.pos k) m) m) b =
      if 7 * i ≤ b ∧ b - 7 * i ∈ ks then
        some (lsbMerge ((Cells.read? m b).getD (Config.freeSample draw b)) (w.pos (b - 7 * i)))
      else Cells.read? m b := by
  induction ks generalizing m with
  | nil => simp
  | cons k ks ih =>
    rw [List.nodup_cons] at hks
    rw [List.foldl_cons, ih hks.2, read?_mergeSample]
    by_cases hb : b = sampleIndex i k
    · have hk : b - 7 * i = k := by simp only [hb, sampleIndex, group]; omega
      have hle : 7 * i ≤ b := by simp only [hb, sampleIndex, group]; omega
      rw [if_neg (by rw [hk]; exact fun h => hks.1 h.2), if_pos hb,
        if_pos ⟨hle, hk ▸ List.mem_cons_self⟩, hk, hb]
    · have hk : 7 * i ≤ b → b - 7 * i ≠ k := by
        intro h₁ h₂
        apply hb
        simp only [sampleIndex, group]
        omega
      rw [if_neg hb]
      by_cases hle : 7 * i ≤ b
      · simp [hle, hk hle]
      · simp [hle]

/-- What a read finds after one group is written: each of its 7 samples with the LSB replaced, all else as before. -/
theorem read?_writeGroup (draw i b : Nat) (w : BitVector7) (m : Memory) :
    Cells.read? (writeGroup draw i w m) b =
      if 7 * i ≤ b ∧ b < 7 * i + 7 then
        some (lsbMerge ((Cells.read? m b).getD (Config.freeSample draw b)) (w.pos (b - 7 * i)))
      else Cells.read? m b := by
  have hiff : (7 * i ≤ b ∧ b - 7 * i ∈ [0, 1, 2, 3, 4, 5, 6]) ↔ (7 * i ≤ b ∧ b < 7 * i + 7) := by
    simp only [List.mem_cons, List.not_mem_nil, or_false]
    omega
  rw [writeGroup, read?_foldl_mergeSample draw i b w _ (by decide)]
  simp only [hiff]

theorem writeGroup_wf (draw i : Nat) (w : BitVector7) {m : Memory} (h : Memory.wf m = true) :
    Memory.wf (writeGroup draw i w m) = true := by
  simp only [writeGroup, List.foldl]
  iterate 7 apply mergeSample_wf
  exact h

/-- What a read finds once the first `n` message bytes are merged in: the samples below `7*n` with their LSB replaced,
each once, all others as before (R96, R98). -/
theorem read?_encodedCarrier (s : State) (n b : Nat) :
    Cells.read? (encodedCarrier s n) b =
      if b < 7 * n then some (lsbMerge (s.sample b) ((s.replacement (b / 7)).pos (b % 7)))
      else Cells.read? s.car b := by
  induction n with
  | zero => simp [encodedCarrier]
  | succ i ih =>
    rw [encodedCarrier, read?_writeGroup, ih]
    by_cases h₁ : b < 7 * i
    · rw [if_neg (by omega), if_pos h₁, if_pos (by omega)]
    · by_cases h₂ : b < 7 * i + 7
      · have hd : b / 7 = i := by omega
        have hm : b % 7 = b - 7 * i := by omega
        rw [if_pos ⟨by omega, h₂⟩, if_neg h₁, if_pos (by omega), hd, hm]
        rfl
      · rw [if_neg (by omega), if_neg h₁, if_neg (by omega)]

theorem encodedCarrier_wf (s : State) (n : Nat) (h : Memory.wf s.car = true) :
    Memory.wf (encodedCarrier s n) = true := by
  induction n with
  | zero => exact h
  | succ i ih => exact writeGroup_wf _ _ _ ih

/-- What a read finds once the first `n` bytes are recovered (R103). -/
theorem read?_decodedOut (s : State) (n b : Nat) :
    Cells.read? (decodedOut s n) b = if b < n then some (s.recoveredByte b) else Cells.read? s.out b := by
  induction n with
  | zero => simp [decodedOut]
  | succ i ih =>
    rw [decodedOut, Cells.read?_write, ih]
    split_ifs <;> first | omega | simp_all

theorem decodedOut_wf (s : State) (n : Nat) (h : Memory.wf s.out = true) :
    Memory.wf (decodedOut s n) = true := by
  induction n with
  | zero => exact h
  | succ i ih => exact Cells.wf_write _ _ ih

theorem recoveredByte_toNat (s : State) (i : Nat) :
    (s.recoveredByte i).toNat = decByte s.config.h.mat (s.groupLsbs i) := by
  have : decByte s.config.h.mat (s.groupLsbs i) < 128 := pack7_lt _
  simp only [State.recoveredByte, BitVec.toNat_ofNat]
  omega

/-- The samples after the transform of ENCODE (R96, R98). -/
theorem State.sample_encodeTransform (s : State) (a : Nat) :
    (encodeTransform s).sample a =
      if a < 7 * s.msgLen then lsbMerge (s.sample a) ((s.replacement (a / 7)).pos (a % 7)) else s.sample a := by
  have h : Cells.read? (encodeTransform s).car a = _ := read?_encodedCarrier s s.msgLen a
  rw [State.sample, h]
  split_ifs <;> rfl

/-- The bytes of `OUT` after the transform of DECODE (R103). -/
theorem State.outByte_decodeTransform (s : State) (a : Nat) :
    (decodeTransform s).outByte a = if a < s.msgLen then s.recoveredByte a else s.outByte a := by
  have h : Cells.read? (decodeTransform s).out a = _ := read?_decodedOut s s.msgLen a
  rw [State.outByte, h]
  split_ifs <;> rfl

/-- All that an operation can do, by its row of the opcode table (R68). -/
theorem exec_cases {i : Instr} {s t : State} (h : exec i s = .next t) :
    (i = .build ∧ t = buildTable s) ∨
    (i = .encode ∧ t = finish s.encodeFailure s (encodeTransform (ensureTable s))) ∨
    (i = .decode ∧ t = finish s.decodeFailure s (decodeTransform s)) ∨
    (i = .capacity ∧ t = { s with result := capacityOf s.sampleCount, status := .ok }) := by
  cases i with
  | build => exact .inl ⟨rfl, (Host.Outcome.next.inj h).symm⟩
  | encode => exact .inr (.inl ⟨rfl, (Host.Outcome.next.inj h).symm⟩)
  | decode => exact .inr (.inr (.inl ⟨rfl, (Host.Outcome.next.inj h).symm⟩))
  | capacity => exact .inr (.inr (.inr ⟨rfl, (Host.Outcome.next.inj h).symm⟩))

/-- All that one step can do: idle, run the operation of the host's next action, or take another action. -/
theorem step_cases (s : State) :
    (s.pending = [] ∧ step s = .next s) ∨
    (∃ w i rest, s.pending = .writeReg .cmd w :: rest ∧ decode w = .ok i ∧
      step s = exec i (s.withPending rest)) ∨
    (∃ act rest, s.pending = act :: rest ∧ act.command? = none ∧ step s = hostEffect act (s.withPending rest)) := by
  cases hp : s.pending with
  | nil => exact .inl ⟨rfl, by simp [step, nextCommand, hostTurn, hp]⟩
  | cons act rest =>
    cases hc : act.command? with
    | none => exact .inr (.inr ⟨act, rest, rfl, hc, by simp [step, nextCommand, hostTurn, hp, hc]⟩)
    | some i =>
      refine .inr (.inl ?_)
      cases act with
      | writeReg r w =>
        simp only [HostAction.command?] at hc
        split_ifs at hc with hr
        subst hr
        refine ⟨w, i, rest, rfl, ?_, by simp [step, nextCommand, hp, HostAction.command?, hc]⟩
        unfold decodeTableWord at hc
        split at hc <;> simp_all
      | readReg r => simp [HostAction.command?] at hc
      | writeCell sp a v => simp [HostAction.command?] at hc
      | readCell sp a => simp [HostAction.command?] at hc
      | reset => simp [HostAction.command?] at hc

/-- A run of any machine goes on from the state a step answers. -/
theorem run_succ (M : Host.Core) {s t : M.State} (h : M.step s = .next t) (k : Nat) :
    M.run (k + 1) s = M.run k t := by
  rw [Host.Core.run, h]

theorem run_succ_of_step {s t : State} (h : step s = .next t) (k : Nat) :
    Host.Core.run Sys2Proof.core (k + 1) s = Host.Core.run Sys2Proof.core k t := run_succ Sys2Proof.core h k

/-- All that a host action without an operation can do, when it is not refused (R25, R37, R125). -/
theorem hostEffect_cases {act : HostAction} {s t : State} (h : hostEffect act s = .next t) :
    (∃ v, act = .writeReg .sampleCount v ∧ s.config.fits v = true ∧ t = s.withSampleCount v) ∨
    (∃ v, act = .writeReg .msgLen v ∧ s.config.fits v = true ∧ t = s.withMsgLen v) ∨
    (∃ a v, act = .writeCell .car a v ∧ a < s.sampleCount ∧ t = s.withCar (Cells.write s.car a v)) ∨
    (∃ a v, act = .writeCell .msg a v ∧ a < s.msgLen ∧ t = s.withMsg (Cells.write s.msg a v)) ∨
    (∃ r, act = .readReg r ∧ t = s) ∨ (∃ sp a, act = .readCell sp a ∧ t = s) ∨
    (act = .reset ∧ t = State.afterReset s.config (s.draw + 1) s.pending) := by
  cases act with
  | writeReg r v =>
    cases r <;> simp only [hostEffect, hostWriteReg] at h <;> (try split at h) <;> simp_all
  | readReg r =>
    simp only [hostEffect, readOutcome] at h
    split at h <;> simp_all
  | writeCell sp a v =>
    cases sp <;> simp only [hostEffect, hostWriteCell] at h <;> (try split_ifs at h) <;> simp_all
  | readCell sp a =>
    simp only [hostEffect, readOutcome] at h
    split at h <;> simp_all
  | reset =>
    simp only [hostEffect, applyReset, Host.Outcome.next.injEq] at h
    simp [h]

end Sys2Proof.Machine
end

