-- ==== Sys2Proof/Laws/PerInstr.lean ====
section
/-! SUPPORT. Laws stated for every instruction, one lemma per constructor. -/

namespace Sys2Proof.Laws.CommandWord

/-- The instruction is well formed and its command word is a 2-bit value (R67, R70). -/
def Statement (i : Instr) : Prop := i.wf = true ∧ commandWordOk (encodeWord i) = true

theorem build : Statement .build := ⟨rfl, rfl⟩

theorem encode : Statement .encode := ⟨rfl, rfl⟩

theorem decode : Statement .decode := ⟨rfl, rfl⟩

theorem capacity : Statement .capacity := ⟨rfl, rfl⟩

end Sys2Proof.Laws.CommandWord
end

