-- ==== Sys2Proof/Tests/Slice0.lean ====
section
/-! SUPPORT. The model's own tests, with expected results from spec/95_test_vectors.md, and a witness for the hypotheses of
each statement. The matrices are that file's test data, not the hardware's. -/

namespace Sys2Proof.Machine

/-- `H_REF` of 95_test_vectors.md section 1. -/
def hRef : WfMatrix :=
  { mat := ⟨⟨true, false, true, false, true, false, true⟩, ⟨false, true, true, false, false, true, true⟩,
      ⟨false, false, false, true, true, true, true⟩⟩ }

/-- `H_C` of 95_test_vectors.md section 1. -/
def hC : WfMatrix :=
  { mat := ⟨⟨true, false, true, false, true, false, true⟩, ⟨true, true, false, false, true, true, true⟩,
      ⟨false, true, true, true, true, false, false⟩⟩ }

/-- `H_SING` of 95_test_vectors.md section 1, ill formed. -/
def hSing : ParityMatrix := { hRef.mat with row2 := ⟨false, false, false, false, true, true, true⟩ }

/-- A byte space holding the listed bytes from index `a` on. -/
def bytesFrom (a : Nat) (bs : List Byte) : Memory :=
  match bs with
  | [] => []
  | b :: rest => (a, b) :: bytesFrom (a + 1) rest

/-- A block with its table built, carrier and message loaded, lengths of 8 bits. -/
def loaded (h : WfMatrix) (carrier message : List Byte) : State :=
  { State.afterReset ⟨h, false, some 8⟩ 0 [] with
    tab := builtTable h, tableValid := true, car := bytesFrom 0 carrier, msg := bytesFrom 0 message,
    sampleCount := carrier.length, msgLen := message.length }

/-- The state after an operation, if it answers one. -/
def after (i : Instr) (s : State) : Option State :=
  match exec i s with
  | .next t => some t
  | .fault _ => none
  | .refused _ => none

/-- The state after a step, if it answers one. -/
def stepped (s : State) : Option State :=
  match step s with
  | .next t => some t
  | .fault _ => none
  | .refused _ => none

/-! ## Well-formedness: each check refuses an ill-formed term -/

theorem test_wf_refuses_singular : hSing.wf = false := by decide

theorem test_admit_refuses_singular : admitMatrix hSing = none := by decide

theorem test_admit_accepts_reference : admitMatrix hRef.mat = some hRef := by decide

theorem test_command_word_refuses_four : commandWordOk 4 = false := by decide

theorem test_commands_well_formed : Instr.wf .build && Instr.wf .encode && Instr.wf .decode && Instr.wf .capacity := by
  decide

theorem test_length_refused_by_width : (Config.mk hRef false (some 4)).fits 16 = false := by decide

/-! ## Decoding: the words of 30_encoding.md R68 -/

theorem test_decode_00 : decodeTableWord 8 0b00 = some .build := by decide

theorem test_decode_01 : decodeTableWord 8 0b01 = some .encode := by decide

theorem test_decode_10 : decodeTableWord 8 0b10 = some .decode := by decide

theorem test_decode_11 : decodeTableWord 8 0b11 = some .capacity := by decide

theorem test_decode_rejects_100 : decodeTableWord 8 0b100 = none := by decide

theorem test_encode_words : [Instr.build, .encode, .decode, .capacity].map encode = [0b00#2, 0b01#2, 0b10#2, 0b11#2] := by
  decide

/-! ## Bit fields: S1 and B16 -/

/-- S1: the byte 65 splits into `u = 1` and `v = 4`. -/
theorem test_split_65 : bits7 65 = ⟨true, false, false, false, false, false, true⟩ ∧ classIdx (bits7 65) = 1#4 ∧
    target (bits7 65) = 4#3 := by decide

/-- B16 and R79's example. -/
theorem test_scalar_primitives : pack7 ⟨false, true, false, true, false, false, true⟩ = 0x4A ∧
    ubits 9#4 = (true, false, false, true) ∧ packV ⟨false, false, true⟩ = 1#3 ∧ lsb 0x87#8 = true ∧
    lsbMerge 0x65#8 false = 0x64#8 ∧ lsbMerge 0x76#8 true = 0x77#8 ∧
    syndrome hRef.mat ⟨false, true, false, true, false, false, true⟩ = ⟨true, false, false⟩ := by decide

/-- B15: the all-ones group decodes to 74 under `H_REF` and to 76 under `H_C`. -/
theorem test_decByte_all_ones : decByte hRef.mat (bits7 127) = 0x74 ∧ decByte hC.mat (bits7 127) = 0x76 := by decide

/-- The closed form on a spot check of T1: `TAB[3][5] = 68`. -/
theorem test_closed_form : pack7 (closedFormVector hRef.mat 3#4 5#3) = 0x68 := by decide

/-! ## BUILD: T1 and T2 -/

set_option maxRecDepth 8000 in
theorem test_build_entry_3_5 :
    (stepped ((State.afterReset ⟨hRef, false, none⟩ 0 []).withFetchWord 8 0b00)).map
      (fun t => (t.entry 29, t.tableValid, t.status)) = some (0x68#7, true, .ok) := by decide

set_option maxRecDepth 8000 in
theorem test_build_entry_15_0_H_C :
    (stepped ((State.afterReset ⟨hC, false, none⟩ 0 []).withFetchWord 8 0b00)).map (fun t => t.entry 120) =
      some 0x75#7 := by decide

/-! ## ENCODE: E4 under both matrices, E11 -/

set_option maxRecDepth 8000 in
/-- E4 under `H_C`. -/
theorem test_encode_two_groups :
    (after .encode (loaded hC [0xA0, 0xA1, 0xA2, 0xA3, 0xA4, 0xA5, 0xA6, 0xA7, 0xA8, 0xA9, 0xAA, 0xAB, 0xAC, 0xAD,
      0xAE, 0xAF] [0x48, 0x69])).map (fun t => (t.status, t.car)) =
      some (.ok, bytesFrom 0 [0xA1, 0xA0, 0xA2, 0xA3, 0xA4, 0xA4, 0xA7, 0xA6, 0xA8, 0xA8, 0xAB, 0xAA, 0xAD, 0xAD,
        0xAE, 0xAF]) := by decide

set_option maxRecDepth 8000 in
/-- E11: the message fits the capacity and overruns the carrier. -/
theorem test_encode_overrun :
    (after .encode (loaded hRef [0, 0, 0, 0, 0, 0, 0, 0] [0x41, 0x42, 0x43, 0x44, 0x45, 0x46, 0x47])).map
      (fun t => t.status.code) = some 4#3 := by decide

/-! ## DECODE: X10 and X7 -/

set_option maxRecDepth 8000 in
theorem test_decode_garbage :
    (after .decode { loaded hRef [1, 0, 1, 0, 1, 0, 1, 0, 1, 1, 0, 0, 1, 1] [] with msgLen := 2 }).map
      (fun t => (t.status, t.out, t.outLen)) = some (.ok, bytesFrom 0 [0x54, 0x64], 2) := by decide

set_option maxRecDepth 8000 in
theorem test_decode_short_carrier :
    (after .decode { loaded hRef [0x12, 0x12, 0x12, 0x12, 0x12, 0x12, 0x12, 0x12, 0x12, 0x12, 0x12, 0x12, 0x12] []
      with msgLen := 2, outLen := 1 }).map (fun t => (t.status.code, t.out, t.outLen)) = some (2#3, [], 1) := by decide

/-! ## CAPACITY: K1 and K6 -/

theorem test_capacity_0 : (after .capacity { loaded hRef [] [] with result := 5 }).map (fun t => t.result) = some 0 := by
  decide

theorem test_capacity_8 :
    (after .capacity { loaded hRef [] [] with sampleCount := 8, status := .overrun }).map
      (fun t => (t.result, t.status)) = some (7, .ok) := by decide

/-! ## The host: rights, reads, reset, and the first step from reset -/

/-- A write to a cell that does not exist is refused (U8), a read-only register refuses a write (U7). -/
theorem test_host_refusals :
    (match step ((loaded hRef [1] []).withPending [.writeCell .car 1 7]) with
      | .refused r => some r | .next _ => none | .fault _ => none) = some (.noSuchCell .car 1) ∧
    (match step ((loaded hRef [1] []).withPending [.writeReg .status 0]) with
      | .refused r => some r | .next _ => none | .fault _ => none) = some (.readOnlyRegister .status) := by decide

/-- `HROM:0..20` of `H_C`, 95_test_vectors.md section 1. -/
theorem test_hrom_of_H_C :
    (List.range 21).map (State.cell (loaded hC [] []) .hrom) =
      [1, 0, 1, 0, 1, 0, 1, 1, 1, 0, 0, 1, 1, 1, 0, 1, 1, 1, 1, 0, 0] := by decide

/-- P5: an ENCODE straight after reset fails with `InvalidInput`, not `NoTable`. -/
theorem test_encode_after_reset :
    (stepped (State.reset.withFetchWord 8 0b01)).map (fun t => t.status.code) = some 1#3 := by decide

/-- A BUILD straight after reset completes whatever `H` is. -/
theorem test_build_after_reset :
    (stepped (State.reset.withFetchWord 8 0b00)).map (fun t => t.tableValid) = some true := by decide

/-- R73 and R72: the pseudo-instruction `decode` sets the length before it loads the carrier. -/
theorem test_decode_call :
    programActions (decodeCall [0xFE, 0xFF] 0) =
      [.writeReg .sampleCount 2, .writeCell .car 0 0xFE, .writeCell .car 1 0xFF, .writeReg .msgLen 0,
        .writeReg .cmd 2] := by decide

/-- R72: an `EXPECT` on the carrier of P1. -/
theorem test_expect :
    (Expectation.space .car [0x10, 0x21]).holds (loaded hRef [0x10, 0x21] []) = true ∧
      (Expectation.reg .status 1).holds (loaded hRef [] []) = false := by decide

/-- The model's choice of log 16: no `EXPECT` about `CMD` holds. -/
theorem expect_cmd_never_holds (s : State) (v : Nat) : (Expectation.reg .cmd v).holds s = false := rfl

/-! ## Witnesses: states that meet the hypotheses of the statements -/

/-- P1's carrier and message, ready to encode. -/
def ready : State := loaded hRef [0x10, 0x21, 0x32, 0x43, 0x54, 0x65, 0x76, 0x87] [0x41]

/-- P1's encoded carrier with the LSB of its first sample changed. -/
def changed : State := loaded hRef [0x11, 0x21, 0x32, 0x43, 0x54, 0x64, 0x77, 0x87] [0x41]

set_option maxRecDepth 8000 in
/-- P1: the encoded carrier as the host reads it. -/
theorem test_host_reads_the_encoded_carrier :
    (after .encode ready).map (Expectation.holds (.space .car [0x10, 0x21, 0x32, 0x43, 0x54, 0x64, 0x77, 0x87])) =
      some true := by decide

/-- X10's first group as the host reads it, and `changed`: a changed LSB at position 0 flips bit 0 of P1's byte. -/
theorem test_host_reads_the_result :
    (after .decode { loaded hRef [1, 0, 1, 0, 1, 0, 1] [] with msgLen := 1 }).map
      (Expectation.holds (.space .out [0x54])) = some true ∧
    (after .decode changed).map (Expectation.holds (.space .out [0x40])) = some true := by decide

set_option maxRecDepth 8000 in
/-- An LSB of `changed` differs from the one ENCODE left. -/
theorem changed_lsb : ∀ t, exec .encode ready = .next t → lsb (changed.sample 0) ≠ lsb (t.sample 0) := by
  have h : (after .encode ready).map (fun t => lsb (t.sample 0)) = some false := by decide
  intro t e
  simp only [after, e, Option.map_some, Option.some.injEq] at h
  rw [h]
  decide

/-! The witnesses below never look at an entry of the table. -/

seal fileCandidates builtTable

theorem loaded_inv (h : WfMatrix) (c m : List Byte) (hc : Memory.wf (bytesFrom 0 c) = true)
    (hm : Memory.wf (bytesFrom 0 m) = true) (lc : c.length < 256) (lm : m.length < 256) : (loaded h c m).Inv where
  carWf := hc
  msgWf := hm
  outWf := rfl
  tabWf := builtTable_wf h
  tabInRange := builtTable_inRange h
  tabBuilt := fun _ => rfl
  outAscii := by simp [loaded]
  outWritten := by simp [loaded]
  sampleCountFits := decide_eq_true lc
  msgLenFits := decide_eq_true lm
  resultFits := by simp [loaded, Config.fits]
  outLenFits := by simp [loaded, Config.fits]

theorem ready_inv : ready.Inv := loaded_inv _ _ _ (by decide) (by decide) (by decide) (by decide)

theorem ready_ascii : ready.AsciiMessage := by unfold State.AsciiMessage; decide

theorem ready_encodeReady : ready.EncodeReady := ⟨by decide, by decide, ready_ascii, .inl rfl⟩

theorem ready_encodes : ∃ t, exec .encode ready = .next t ∧ t.status = .ok := ⟨_, rfl, by decide⟩

/-- A state before BUILD, with a lazy or a strict configuration. -/
def unbuilt (lazyBuild : Bool) : State :=
  { ready with config := ⟨hRef, lazyBuild, some 8⟩, tab := [], tableValid := false }

theorem witness_StepRunsTheDecodedCommand :
    (ready.withPending [.writeReg .cmd 1]).pending = [.writeReg .cmd 1] ∧ decode 1 = .ok .encode ∧
      (ready.withPending [.writeReg .cmd 4]).pending = [.writeReg .cmd 4] ∧ decode 4 = .error (.notTwoBits 4) := by
  decide

theorem witness_ResetActionRestoresTheResetValues :
    (ready.withPending [.reset, .writeReg .cmd 0]).pending = .reset :: [.writeReg .cmd 0] := by decide

theorem witness_CapacityWritesTheBound : ready.config.fits ready.sampleCount = true := by decide

theorem witness_BuildAgainChangesOnlyStatus : ready.Inv ∧ ready.tableValid = true := ⟨ready_inv, rfl⟩

theorem witness_BuiltTableInvertsTheMessageSplit : ready.Inv ∧ ready.tableValid = true ∧ (127 : Nat) < 128 :=
  ⟨ready_inv, rfl, by decide⟩

/-- At the boundary: exactly 7 samples for one byte, the last relative position, and the first sample beyond. -/
theorem witness_EncodeWritesEachSampleOfEachGroup :
    let s := loaded hRef [0xFF, 0xFF, 0xFF, 0xFF, 0xFF, 0xFF, 0xFF] [0x41]
    s.tableValid = true ∧ 1 ≤ s.msgLen ∧ 7 * s.msgLen ≤ s.sampleCount ∧ s.AsciiMessage ∧ 0 < s.msgLen ∧
      (∀ i k, i < s.msgLen → k < 7 → 7 ≠ sampleIndex i k) ∧ Memory.wf s.car = true ∧ (0 : Nat) ≠ 1 := by
  refine ⟨rfl, by decide, by decide, by unfold State.AsciiMessage; decide, by decide, ?_, by decide, by decide⟩
  intro i k hi hk
  change i < 1 at hi
  simp only [sampleIndex, group]
  omega

theorem witness_EncodePostconditionOfEachGroup : ready.Inv ∧ ready.EncodeReady ∧ 0 < ready.msgLen :=
  ⟨ready_inv, ready_encodeReady, by decide⟩

theorem witness_EncodeTouchesOnlyLsbsOfUsedSamples :
    (∃ t, exec .encode ready = .next t ∧ t.status = .ok) ∧ 7 * ready.msgLen ≤ 7 ∧ 6 < 7 * ready.msgLen ∧
      (ready.tableValid = true ∨ ready.config.lazyBuild = false) ∧
      ∃ t, exec .encode (unbuilt false) = .next t ∧ t.status ≠ .ok :=
  ⟨ready_encodes, by decide, by decide, .inl rfl, _, rfl, by decide⟩

theorem witness_LazyBuildOrNoTable :
    ready.tableValid = true ∧ (unbuilt false).tableValid = false ∧ 1 ≤ (unbuilt false).msgLen ∧
      7 * (unbuilt false).msgLen ≤ (unbuilt false).sampleCount ∧ (unbuilt false).AsciiMessage ∧
      (unbuilt false).config.lazyBuild = false ∧ (unbuilt true).tableValid = false ∧
      (unbuilt true).config.lazyBuild = true ∧ (unbuilt true).AsciiMessage ∧
      ¬ (1 ≤ State.reset.msgLen ∧ 7 * State.reset.msgLen ≤ State.reset.sampleCount ∧
        State.reset.AsciiMessage) :=
  ⟨rfl, rfl, by decide, by decide, ready_ascii, rfl, rfl, rfl, ready_ascii, fun h => absurd h.1 (by decide)⟩

theorem witness_EncodeTwiceIsEncodeOnce : ∃ t, exec .encode ready = .next t ∧ t.status = .ok := ready_encodes

/-- Two carriers that differ, one message. -/
def ready₂ : State := loaded hRef [0xFF, 0xFF, 0xFF, 0xFF, 0xFF, 0xFF, 0xFF] [0x41]

theorem ready₂_inv : ready₂.Inv := loaded_inv _ _ _ (by decide) (by decide) (by decide) (by decide)

theorem witness_EncodedLsbsDependOnMessageAndMatrixOnly :
    ready.Inv ∧ ready₂.Inv ∧ ready.config.h = ready₂.config.h ∧
      (∃ t, exec .encode ready = .next t ∧ t.status = .ok) ∧ (∃ t, exec .encode ready₂ = .next t ∧ t.status = .ok) ∧
      0 < ready.msgLen ∧ 0 < ready₂.msgLen ∧ ready.messageByte 0 = ready₂.messageByte 0 ∧
      ready.sample 0 ≠ ready₂.sample 0 :=
  ⟨ready_inv, ready₂_inv, rfl, ready_encodes, ⟨_, rfl, by decide⟩, by decide, by decide, by decide, by decide⟩

/-- A state that differs from `ready` in `OUT`'s length, `RESULT` and an unused cell only. -/
def readyOther : State := { ready with result := 3, car := Cells.write ready.car 8 0x55 }

theorem witness_EncodeIsDeterminedByItsOperands :
    ready.Inv ∧ readyOther.Inv ∧ ready.config = readyOther.config ∧ ready.tableValid = readyOther.tableValid ∧
      ready.sampleCount = readyOther.sampleCount ∧ ready.msgLen = readyOther.msgLen ∧
      (∀ a, a < ready.sampleCount → ready.sample a = readyOther.sample a) ∧
      (∀ i, i < ready.msgLen → ready.messageByte i = readyOther.messageByte i) ∧ ready ≠ readyOther := by
  refine ⟨ready_inv, ?_, rfl, rfl, rfl, rfl, by decide, fun _ _ => rfl, fun h => ?_⟩
  · have h := ready_inv
    exact ⟨Cells.wf_write _ _ h.carWf, h.msgWf, h.outWf, h.tabWf, h.tabInRange, h.tabBuilt, h.outAscii,
      h.outWritten, h.sampleCountFits, h.msgLenFits, by decide, h.outLenFits⟩
  · exact absurd (congrArg State.result h) (by decide)

/-- Each failure is raised somewhere, and a success too. -/
theorem witness_FailuresAreRaisedExactlyUnderTheirConditions :
    (after .encode (loaded hRef [0xFF] [0x41])).map (·.status) = some .invalidInput ∧
      (after .decode (loaded hRef [0xFF] [0x41])).map (·.status) = some .insufficientCarrier ∧
      (after .encode (unbuilt false)).map (·.status) = some .noTable ∧
      (after .encode (loaded hRef [0xFF, 0xFF, 0xFF, 0xFF, 0xFF, 0xFF] [0x41])).map (·.status) = some .overrun ∧
      (after .encode ready).map (·.status) = some .ok := by decide

theorem witness_DecodeRecoversEachGroup : ready₂.DecodeReady ∧ 0 < ready₂.msgLen ∧ ready₂.msgLen ≤ 1 :=
  ⟨by unfold State.DecodeReady; decide, by decide, by decide⟩

/-- At the boundary: 6 samples are too few and 7 are enough. -/
theorem witness_DecodeFailsExactlyOnAShortCarrier :
    (loaded hRef [1, 1, 1, 1, 1, 1] [0]).sampleCount < 7 * (loaded hRef [1, 1, 1, 1, 1, 1] [0]).msgLen ∧
      7 * ready₂.msgLen ≤ ready₂.sampleCount := by decide

theorem witness_ZeroLengthDecodeSucceedsEmpty : (loaded hRef [0xFF] []).msgLen = 0 := rfl

/-- The second state has no table, a lazy configuration and other upper bits. -/
theorem witness_DecodeDependsOnMatrixLengthsAndLsbsOnly :
    let s₁ := loaded hRef [0xFE, 0xFF, 0xFE, 0xFF, 0xFE, 0xFE, 0xFF] [0]
    let s₂ := { unbuilt true with
      car := bytesFrom 0 [0x00, 0x01, 0x00, 0x01, 0x00, 0x00, 0x01], sampleCount := 7 }
    s₁.config.h = s₂.config.h ∧ s₁.sampleCount = s₂.sampleCount ∧ s₁.msgLen = s₂.msgLen ∧
      (∀ a, a < 7 * s₁.msgLen → lsb (s₁.sample a) = lsb (s₂.sample a)) ∧ s₁.tableValid ≠ s₂.tableValid := by decide

theorem witness_DecodeInvertsEncode : ready.Inv ∧ ∃ t, exec .encode ready = .next t ∧ t.status = .ok :=
  ⟨ready_inv, ready_encodes⟩

/-- Both sides of the equivalence are false of `changed`: an LSB differs, and the byte does not come back. -/
theorem witness_RoundTripFailsExactlyWhenAnLsbChanged :
    ready.Inv ∧ changed.config.h = ready.config.h ∧ changed.sampleCount = ready.sampleCount ∧
      changed.msgLen = ready.msgLen ∧
      ∃ t r, exec .encode ready = .next t ∧ t.status = .ok ∧ exec .decode changed = .next r ∧
        0 < 7 * ready.msgLen ∧ lsb (changed.sample 0) ≠ lsb (t.sample 0) ∧
        r.outByte 0 ≠ ready.messageByte 0 := by
  obtain ⟨t, e, ht⟩ := ready_encodes
  exact ⟨ready_inv, rfl, rfl, rfl, t, _, e, ht, rfl, by decide, changed_lsb t e, by decide⟩

theorem witness_EachOperationWritesOnlyItsOwnState :
    (∃ t, exec .build ready = .next t) ∧ (∃ t, exec .encode ready = .next t) ∧ (∃ t, exec .decode ready = .next t) ∧
      ∃ t, exec .capacity ready = .next t :=
  ⟨⟨_, rfl⟩, ⟨_, rfl⟩, ⟨_, rfl⟩, ⟨_, rfl⟩⟩

theorem witness_OnlyCapacityWritesResult :
    (after .capacity ready).map (·.result) = some 7 ∧ (after .decode ready).map (·.result) = some 0 := by decide

theorem witness_OnlySuccessfulDecodeWritesOutLen :
    (after .decode ready).map (·.outLen) = some 1 ∧ (after .encode ready).map (·.outLen) = some 0 := by decide

theorem unbuilt_inv (b : Bool) : (unbuilt b).Inv := by
  have h := ready_inv
  exact ⟨h.carWf, h.msgWf, h.outWf, rfl, by simp [unbuilt], by simp [unbuilt], h.outAscii, h.outWritten,
    h.sampleCountFits, h.msgLenFits, h.resultFits, h.outLenFits⟩

/-- A reset, a BUILD and a lazy ENCODE, each from a state that meets the invariant. -/
theorem witness_TableValidChangesOnlyByBuildLazyEncodeAndReset :
    ready.Inv ∧ (unbuilt true).Inv ∧
      (stepped (ready.withPending [.reset])).map (·.tableValid) = some false ∧
      (stepped (ready.withPending [.writeReg .cmd 3])).map (·.tableValid) = some true ∧
      (stepped ((unbuilt true).withPending [.writeReg .cmd 1])).map (·.tableValid) = some true ∧
      (stepped ((unbuilt false).withPending [.writeReg .cmd (encodeWord .build)])).map (·.tableValid) = some true :=
  ⟨ready_inv, unbuilt_inv true, by decide, by decide, by decide, by decide⟩

theorem witness_StepKeepsTheConfiguration : ∃ t, step (ready.withPending [.reset]) = .next t := ⟨_, rfl⟩

theorem witness_StepTakesTheHostsActionsInOrder :
    (stepped (ready.withPending [.readReg .status, .reset])).map (·.pending) = some [.reset] ∧ ready.pending = [] := by
  decide

theorem witness_StepKeepsTheInvariant : ready.Inv ∧ ∃ t, step (ready.withFetchWord 8 1) = .next t :=
  ⟨ready_inv, _, rfl⟩

theorem witness_HostReadsReturnRegistersAndChangeNothing :
    RegName.status ≠ .cmd ∧ (ready.withPending [.readReg .status]).pending = [.readReg .status] ∧
      (ready.withPending [.readReg .cmd]).pending = [.readReg .cmd] := by decide

/-- At the boundary: 255 fits 8 bits and 256 does not. -/
theorem witness_HostRegisterWritesReachOnlyTheLengths :
    (ready.withPending [.writeReg .sampleCount 255]).pending = [.writeReg .sampleCount 255] ∧
      ready.config.fits 255 = true ∧ ready.config.fits 256 = false ∧
      (ready.withPending [.writeReg .msgLen 256]).pending = [.writeReg .msgLen 256] ∧
      (ready.withPending [.writeReg .result 1]).pending = [.writeReg .result 1] := by decide

/-- At the boundary: the last cell and the first that does not exist, of `CAR` and of `HROM`. -/
theorem witness_HostCellAccessesFollowTheRights :
    (ready.withPending [.writeCell .car 7 1]).pending = [.writeCell .car 7 1] ∧ 7 < ready.sampleCount ∧
      ready.sampleCount ≤ 8 ∧ (ready.withPending [.writeCell .msg 0 1]).pending = [.writeCell .msg 0 1] ∧
      0 < ready.msgLen ∧ ready.msgLen ≤ 1 ∧
      (ready.withPending [.readCell .hrom 20]).pending = [.readCell .hrom 20] ∧
      (after .decode ready).map (·.outLen) = some 1 ∧ (20 < 21 ∧ 127 < 128) ∧
      (ready.withPending [.writeCell .tab 0 1]).pending = [.writeCell .tab 0 1] := by decide

theorem witness_HostWrittenCellsReadBackAlone :
    (ready.withPending [.writeCell .car 7 1]).pending = [.writeCell .car 7 1] ∧ 7 < ready.sampleCount ∧
      (ready.withPending [.writeCell .msg 0 1]).pending = [.writeCell .msg 0 1] ∧ 0 < ready.msgLen ∧
      ¬ (Space.msg = .car ∧ 7 = 7) := by decide

/-- At the boundary: the last bit of the matrix. -/
theorem witness_HostReadsTheMatrixFromHrom : 2 < 3 ∧ 6 < 7 ∧ 7 * 2 + 6 = 20 ∧ 21 ≤ 21 := by decide

/-- P4's operands: the message of 7 bytes in 8 samples. -/
theorem witness_CapacityIsNecessaryNotSufficient :
    let s := loaded hRef [0, 0, 0, 0, 0, 0, 0, 0] [0x41, 0x42, 0x43, 0x44, 0x45, 0x46, 0x47]
    2 ≤ s.sampleCount ∧ s.msgLen = max 1 s.sampleCount - 1 ∧ s.AsciiMessage ∧
      ∃ t, exec .encode ready = .next t ∧ t.status = .ok :=
  ⟨by decide, by decide, by unfold State.AsciiMessage; decide, ready_encodes⟩

/-- At the boundary: as many bytes as there are cells. -/
theorem witness_LoadStatementStoresItsBytes :
    let s := (loaded hRef [0, 0] [0]).withPending ((Stmt.load .car [1, 2]).actions ++ [.reset])
    let m := (loaded hRef [0, 0] [0]).withPending ((Stmt.load .msg [3]).actions ++ [])
    s.pending = (Stmt.load .car [1, 2]).actions ++ [.reset] ∧ [(1 : Byte), 2].length ≤ s.sampleCount ∧
      m.pending = (Stmt.load .msg [3]).actions ++ [] ∧ [(3 : Byte)].length ≤ m.msgLen := by decide

theorem witness_WellFormedMatricesAreAdmitted :
    admitMatrix hC.mat = some hC ∧ hC.mat.wf = true ∧ hSing.wf = false := by decide

end Sys2Proof.Machine
end

section
/-! PROOFS. The configurations the model accepts (00_scope.md, R11). -/

namespace Sys2Proof.Machine

/-- A matrix is admitted as the configuration that carries it, and as no other. -/
theorem admitMatrix_eq_some_iff {m : ParityMatrix} {h : WfMatrix} : admitMatrix m = some h ↔ h.mat = m := by
  unfold admitMatrix
  split
  case isTrue hm =>
    constructor
    · rintro ⟨⟩
      rfl
    · rintro rfl
      rfl
  case isFalse hm =>
    constructor
    · rintro ⟨⟩
    · rintro rfl
      exact absurd h.wf hm

/-- The refusal of R11: exactly the matrices without `WF(H)` are no configuration. -/
theorem admitMatrix_eq_none_iff {m : ParityMatrix} : admitMatrix m = none ↔ m.wf = false := by
  simp [admitMatrix]

/-- Settles O48: an admitted configuration carries the matrix together with its proof of `WF(H)`. -/
theorem wellFormedMatricesAreAdmitted : Obligations.WellFormedMatricesAreAdmitted := by
  intro m
  refine ⟨fun h hadmit => ?_, fun hm => ?_, admitMatrix_eq_none_iff.mpr⟩
  · obtain rfl := admitMatrix_eq_some_iff.mp hadmit
    exact ⟨rfl, h.wf⟩
  · exact ⟨⟨m, hm⟩, admitMatrix_eq_some_iff.mpr rfl, rfl⟩

end Sys2Proof.Machine
end

section
/-! PROOFS. The index pair of a table entry determines its vector, so BUILD files each candidate in a cell of its own and
fills all 128 cells (41_table_build.md, R86 to R88). -/

namespace Sys2Proof.Machine

/-- Cramer's rule on columns 0, 1, 3: an identity of the 9 bits of those columns and the 3 free bits (R11, R88). -/
theorem applyInverse_syndrome {m : ParityMatrix} (hm : m.wf = true) (x y z : Bool) :
    applyInverse m (syndrome m ⟨x, y, false, z, false, false, false⟩) = ⟨x, y, z⟩ := by
  obtain ⟨⟨a0, a1, a2, a3, a4, a5, a6⟩, ⟨b0, b1, b2, b3, b4, b5, b6⟩, ⟨c0, c1, c2, c3, c4, c5, c6⟩⟩ := m
  simp only [ParityMatrix.wf, ParityMatrix.det] at hm
  simp only [applyInverse, syndrome, rowParity, Bool.and_false, Bool.xor_false]
  revert x y z a0 a1 a3 b0 b1 b3 c0 c1 c3
  decide

theorem BitVector3.add_add_cancel_right (s t : BitVector3) : (s.add t).add t = s := by
  simp [BitVector3.add]

/-- The closed form finds every vector again from its class index and its syndrome (R87, R88). -/
theorem closedFormVector_classIdx_syndrome {m : ParityMatrix} (hm : m.wf = true) (w : BitVector7) :
    closedFormVector m (classIdx w) (packV (syndrome m w)) = w := by
  have hu : ubits (classIdx w) = (w.b2, w.b4, w.b5, w.b6) := ((classIdx_eq_iff w _).mp rfl).symm
  have hf : applyInverse m ((syndrome m w).add (fixedSyndrome m (w.b2, w.b4, w.b5, w.b6))) =
      ⟨w.b0, w.b1, w.b3⟩ := by
    rw [syndrome_eq_add, BitVector3.add_add_cancel_right, applyInverse_syndrome hm]
  simp only [closedFormVector, hu, vbits_packV, hf]

/-- Two candidates of BUILD are never filed under one cell (R87). -/
theorem candidateIndex_injOn (h : WfMatrix) : Set.InjOn (candidateIndex h) (Set.Iio nVec) := by
  intro i hi j hj hij
  obtain ⟨hu, hv⟩ := tableIndex_injective hij
  have hw : bits7 i = bits7 j := by
    rw [← closedFormVector_classIdx_syndrome h.wf (bits7 i), hu, hv, closedFormVector_classIdx_syndrome h.wf]
  rw [← pack7_bits7 i hi, hw, pack7_bits7 j hj]

/-- Every cell of `TAB` is the cell of some candidate: 128 candidates, each with a cell of its own among 128. -/
theorem exists_candidateIndex_eq (h : WfMatrix) {a : Nat} (ha : a < nVec) : ∃ i < nVec, candidateIndex h i = a := by
  have hmaps : Set.MapsTo (candidateIndex h) (Finset.range nVec) (Finset.range nVec) :=
    fun i _ => Finset.mem_coe.mpr (Finset.mem_range.mpr (candidateIndex_lt h i))
  have hinj : Set.InjOn (candidateIndex h) (Finset.range nVec) := by
    simpa [Finset.coe_range] using candidateIndex_injOn h
  have hsurj := Finset.surjOn_of_injOn_of_card_le _ hmaps hinj le_rfl
  obtain ⟨i, hi, hia⟩ := hsurj (Finset.mem_coe.mpr (Finset.mem_range.mpr ha))
  exact ⟨i, Finset.mem_range.mp hi, hia⟩

/-- A candidate once filed stays in its cell: no later candidate is filed over it (R86, R87). -/
theorem read?_fileCandidates_candidateIndex (h : WfMatrix) {i n : Nat} (hi : i < n) (hn : n ≤ nVec)
    (t : Cells Entry) :
    Cells.read? (fileCandidates h n t) (candidateIndex h i) = some (BitVec.ofNat 7 i) := by
  induction n with
  | zero => omega
  | succ n ih =>
    rw [read?_fileCandidates_succ]
    split_ifs with hc
    · rw [candidateIndex_injOn h (lt_of_lt_of_le hi hn) (lt_of_lt_of_le n.lt_succ_self hn) hc]
    · exact ih (Nat.lt_of_le_of_ne (Nat.le_of_lt_succ hi) fun he => hc (he ▸ rfl)) (by omega)

/-- BUILD leaves the table of `H` whatever `TAB` held before (R24, R86). -/
theorem fileCandidates_eq_builtTable (h : WfMatrix) {t : Cells Entry} (hwf : Cells.wf t = true)
    (hr : ∀ c ∈ t, c.1 < nVec) : fileCandidates h nVec t = builtTable h := by
  refine Cells.ext_read? (fileCandidates_wf h _ hwf) (builtTable_wf h) fun a => ?_
  rcases lt_or_ge a nVec with ha | ha
  · obtain ⟨i, hi, rfl⟩ := exists_candidateIndex_eq h ha
    rw [builtTable, read?_fileCandidates_candidateIndex h hi le_rfl, read?_fileCandidates_candidateIndex h hi le_rfl]
  · have hnone : Cells.read? t a = none := by
      by_contra hsome
      obtain ⟨v, hv⟩ := Option.ne_none_iff_exists'.mp hsome
      exact absurd (hr _ (Cells.mem_of_read? hv)) (not_lt.mpr ha)
    rw [builtTable, read?_fileCandidates_of_ge h _ ha, read?_fileCandidates_of_ge h _ ha, hnone, Cells.read?_nil]

end Sys2Proof.Machine
end

section
/-! PROOFS. Which action a step takes, and what it answers for each (10_state.md, R26, R32). -/

namespace Sys2Proof.Machine

variable {s t : State} {w : Nat} {rest : List HostAction}

theorem HostAction.command?_of_decode_ok {i : Instr} (hd : decode w = .ok i) :
    (HostAction.writeReg .cmd w).command? = some i := by
  simp [command?, decodeTableWord, hd]

theorem HostAction.command?_of_decode_error {e : DecodeError} (hd : decode w = .error e) :
    (HostAction.writeReg .cmd w).command? = none := by
  simp [command?, decodeTableWord, hd]

/-- A step on a command word runs its operation with the write taken off the queue (R26). -/
theorem step_of_command {i : Instr} (hp : s.pending = .writeReg .cmd w :: rest) (hd : decode w = .ok i) :
    step s = exec i (s.withPending rest) := by
  simp [step, nextCommand, hp, HostAction.command?_of_decode_ok hd]

/-- A step on an action that starts no operation is that action's effect, with the action taken off the queue. -/
theorem step_of_hostEffect {act : HostAction} (hp : s.pending = act :: rest) (hc : act.command? = none) :
    step s = hostEffect act (s.withPending rest) := by
  simp [step, nextCommand, hostTurn, hp, hc]

/-- All that a step that answers a state has done: nothing, an operation, or another action of the host. -/
theorem step_next_cases (h : step s = .next t) :
    (s.pending = [] ∧ t = s) ∨
    (∃ w i rest, s.pending = .writeReg .cmd w :: rest ∧ decode w = .ok i ∧ exec i (s.withPending rest) = .next t) ∨
    (∃ act rest, s.pending = act :: rest ∧ act.command? = none ∧
      hostEffect act (s.withPending rest) = .next t) := by
  rcases step_cases s with ⟨hp, hs⟩ | ⟨w, i, rest, hp, hd, hs⟩ | ⟨act, rest, hp, hc, hs⟩
  · exact .inl ⟨hp, Host.Outcome.next.inj (h.symm.trans hs)⟩
  · exact .inr (.inl ⟨w, i, rest, hp, hd, hs.symm.trans h⟩)
  · exact .inr (.inr ⟨act, rest, hp, hc, hs.symm.trans h⟩)

end Sys2Proof.Machine
end

section
/-! PROOFS. What an operation or a host action writes: the state it answers, with everything that stays. -/

namespace Sys2Proof.Machine

-- Nothing here looks into the table: Lean would otherwise run the 128 rounds of BUILD on a symbolic `H`.
seal fileCandidates

variable {i : Instr} {act : HostAction} {s t : State}

/-- A successful ENCODE leaves a valid table: the one it found, or the one it built (R92, R95). -/
theorem encodeTransform_ensureTable_eq (s : State) :
    encodeTransform (ensureTable s) =
      { s with car := encodedCarrier (ensureTable s) s.msgLen, tab := (ensureTable s).tab, tableValid := true,
               status := (ensureTable s).status } := by
  cases hv : s.tableValid with
  | true =>
    have he : ensureTable s = s := if_pos hv
    rw [he, ← hv]
    rfl
  | false =>
    have he : ensureTable s = buildTable s := if_neg (by simp [hv])
    rw [he]
    rfl

/-- The state an operation answers: its own result with `OK`, or its failure and nothing else (R68, R116, R117). -/
theorem exec_next_cases (h : exec i s = .next t) :
    (i = .build ∧ t = { s with tab := fileCandidates s.config.h nVec s.tab, tableValid := true, status := .ok }) ∨
    (i = .encode ∧ s.encodeFailure = none ∧
      t = { s with car := encodedCarrier (ensureTable s) s.msgLen, tab := (ensureTable s).tab, tableValid := true,
                   status := .ok }) ∨
    (i = .decode ∧ s.decodeFailure = none ∧
      t = { s with out := decodedOut s s.msgLen, outLen := s.msgLen, status := .ok }) ∨
    (i = .capacity ∧ t = { s with result := capacityOf s.sampleCount, status := .ok }) ∨
    (∃ e, (i = .encode ∧ s.encodeFailure = some e ∨ i = .decode ∧ s.decodeFailure = some e) ∧
      t = { s with status := e.status }) := by
  rcases exec_cases h with ⟨hi, ht⟩ | ⟨hi, ht⟩ | ⟨hi, ht⟩ | ⟨hi, ht⟩
  · exact .inl ⟨hi, ht.trans (buildTable_eq s)⟩
  · rcases finish_cases s.encodeFailure s (encodeTransform (ensureTable s)) with ⟨hf, hr⟩ | ⟨e, hf, hr⟩
    · rw [hr, encodeTransform_ensureTable_eq] at ht
      exact .inr (.inl ⟨hi, hf, ht⟩)
    · exact .inr (.inr (.inr (.inr ⟨e, .inl ⟨hi, hf⟩, ht.trans hr⟩)))
  · rcases finish_cases s.decodeFailure s (decodeTransform s) with ⟨hf, hr⟩ | ⟨e, hf, hr⟩
    · exact .inr (.inr (.inl ⟨hi, hf, ht.trans hr⟩))
    · exact .inr (.inr (.inr (.inr ⟨e, .inr ⟨hi, hf⟩, ht.trans hr⟩)))
  · exact .inr (.inr (.inr (.inl ⟨hi, ht⟩)))

/-- No operation writes a parameter (R21). -/
theorem exec_config (h : exec i s = .next t) : t.config = s.config := by
  rcases exec_next_cases h with ⟨-, rfl⟩ | ⟨-, -, rfl⟩ | ⟨-, -, rfl⟩ | ⟨-, rfl⟩ | ⟨e, -, rfl⟩ <;> rfl

/-- No host action writes a parameter, reset included (R21, R36). -/
theorem hostEffect_config (h : hostEffect act s = .next t) : t.config = s.config := by
  rcases hostEffect_cases h with ⟨_, -, -, rfl⟩ | ⟨_, -, -, rfl⟩ | ⟨_, _, -, -, rfl⟩ | ⟨_, _, -, -, rfl⟩ |
    ⟨_, -, rfl⟩ | ⟨_, _, -, rfl⟩ | ⟨-, rfl⟩ <;> rfl

/-- `TABLE_VALID` after an operation: set by BUILD and by an ENCODE that succeeds, cleared by none (R23, R95). -/
theorem exec_tableValid_iff (h : exec i s = .next t) :
    t.tableValid = true ↔ s.tableValid = true ∨ i = .build ∨ i = .encode ∧ s.encodeFailure = none := by
  rcases exec_next_cases h with ⟨rfl, rfl⟩ | ⟨rfl, hf, rfl⟩ | ⟨rfl, -, rfl⟩ | ⟨rfl, rfl⟩ | ⟨e, hf, rfl⟩
  · simp
  · simp [hf]
  · simp
  · simp
  · rcases hf with ⟨rfl, hf⟩ | ⟨rfl, -⟩
    · simp [hf]
    · simp

/-- `TABLE_VALID` after a host action that starts no operation: cleared by reset only (R23, R36). -/
theorem hostEffect_tableValid_iff (h : hostEffect act s = .next t) :
    t.tableValid = true ↔ act ≠ .reset ∧ s.tableValid = true := by
  rcases hostEffect_cases h with ⟨_, rfl, -, rfl⟩ | ⟨_, rfl, -, rfl⟩ | ⟨_, _, rfl, -, rfl⟩ |
    ⟨_, _, rfl, -, rfl⟩ | ⟨_, rfl, rfl⟩ | ⟨_, _, rfl, rfl⟩ | ⟨rfl, rfl⟩ <;> simp

/-- `TABLE_VALID` after a step: a step on reset clears it; a step on BUILD or on an ENCODE that passes its checks sets it. -/
theorem step_tableValid_iff (h : step s = .next t) :
    t.tableValid = true ↔ s.pending.head? ≠ some .reset ∧
      (s.tableValid = true ∨ ∃ w, s.pending.head? = some (.writeReg .cmd w) ∧
        (decode w = .ok .build ∨ decode w = .ok .encode ∧ s.encodeFailure = none)) := by
  rcases step_next_cases h with ⟨hp, rfl⟩ | ⟨w, i, rest, hp, hd, he⟩ | ⟨act, rest, hp, hc, he⟩
  · simp [hp]
  · have hfail : (s.withPending rest).encodeFailure = s.encodeFailure := rfl
    simp [exec_tableValid_iff he, hp, hd, hfail]
  · have hnone : ¬ ∃ w, act = .writeReg .cmd w ∧
        (decode w = .ok .build ∨ decode w = .ok .encode ∧ s.encodeFailure = none) := by
      rintro ⟨w, rfl, hd | ⟨hd, -⟩⟩
      · simp [HostAction.command?_of_decode_ok hd] at hc
      · simp [HostAction.command?_of_decode_ok hd] at hc
    simp [hostEffect_tableValid_iff he, hp, hnone]

/-- An ENCODE that succeeds without a table builds it lazily (R95). -/
theorem lazyBuild_of_encodeFailure_eq_none (hf : s.encodeFailure = none) (hv : s.tableValid = false) :
    s.config.lazyBuild = true := by
  rcases s.encodeFailure_cases with ⟨-, he⟩ | ⟨-, -, he⟩ | ⟨-, -, -, -, he⟩ | ⟨-, -, ht | hl, -⟩
  · simp [he] at hf
  · simp [he] at hf
  · simp [he] at hf
  · simp [hv] at ht
  · exact hl

end Sys2Proof.Machine
end

section
/-! PROOFS. The invariant: reset meets it, and each operation and each host action keeps it. -/

namespace Sys2Proof

theorem Config.fits_zero (c : Config) : c.fits 0 = true := by
  unfold Config.fits
  split
  · rfl
  · simp

theorem Config.fits_of_le {c : Config} {m n : Nat} (hn : c.fits n = true) (hmn : m ≤ n) : c.fits m = true := by
  unfold Config.fits at hn ⊢
  split at hn
  · rfl
  · simp only [decide_eq_true_eq] at hn ⊢
    omega

end Sys2Proof

namespace Sys2Proof.Machine

-- Nothing here looks into the table either.
seal fileCandidates builtTable

variable {i : Instr} {act : HostAction} {s t : State}

theorem capacityOf_le (n : Nat) : capacityOf n ≤ n := by
  simp only [capacityOf]
  omega

theorem State.afterReset_inv (c : Config) (n : Nat) (acts : List HostAction) : (State.afterReset c n acts).Inv where
  carWf := rfl
  msgWf := rfl
  outWf := rfl
  tabWf := rfl
  tabInRange := by simp
  tabBuilt := by simp
  outAscii := by simp
  outWritten := by simp
  sampleCountFits := c.fits_zero
  msgLenFits := c.fits_zero
  resultFits := c.fits_zero
  outLenFits := c.fits_zero

/-! A write of one field keeps the invariant when the new content meets that field's own clause; `STATUS` and the queue have none. -/

theorem State.Inv.withStatus (h : s.Inv) (st : Status) : (s.withStatus st).Inv := { h with }

theorem State.Inv.withPending (h : s.Inv) (acts : List HostAction) : (s.withPending acts).Inv := { h with }

theorem State.Inv.withSampleCount (h : s.Inv) {v : Nat} (hv : s.config.fits v = true) :
    (s.withSampleCount v).Inv := { h with sampleCountFits := hv }

theorem State.Inv.withMsgLen (h : s.Inv) {v : Nat} (hv : s.config.fits v = true) :
    (s.withMsgLen v).Inv := { h with msgLenFits := hv }

theorem State.Inv.withResult (h : s.Inv) {v : Nat} (hv : s.config.fits v = true) :
    (s.withResult v).Inv := { h with resultFits := hv }

theorem State.Inv.withCar (h : s.Inv) {m : Memory} (hm : Memory.wf m = true) : (s.withCar m).Inv :=
  { h with carWf := hm }

theorem State.Inv.withMsg (h : s.Inv) {m : Memory} (hm : Memory.wf m = true) : (s.withMsg m).Inv :=
  { h with msgWf := hm }

/-- After BUILD `TAB` is the table of `H`, whatever it held before (R24, R86). -/
theorem buildTable_inv (h : s.Inv) : (buildTable s).Inv :=
  { h with
    tabWf := fileCandidates_wf _ _ h.tabWf
    tabInRange := fileCandidates_inRange _ _ h.tabInRange
    tabBuilt := fun _ => fileCandidates_eq_builtTable _ h.tabWf h.tabInRange }

theorem ensureTable_inv (h : s.Inv) : (ensureTable s).Inv := by
  unfold ensureTable
  split
  · exact h
  · exact buildTable_inv h

theorem encodeTransform_inv (h : s.Inv) : (encodeTransform s).Inv := h.withCar (encodedCarrier_wf s _ h.carWf)

/-- Every byte that DECODE recovers is below 128 (R34, R84 item 3). -/
theorem decodedOut_ascii (n : Nat) (h : ∀ c ∈ s.out, c.2.toNat < asciiLimit) :
    ∀ c ∈ decodedOut s n, c.2.toNat < asciiLimit := by
  induction n with
  | zero => exact h
  | succ n ih =>
    intro c hc
    rcases Cells.mem_write hc with hc | rfl
    · exact ih c hc
    · exact (recoveredByte_toNat s n).trans_lt (pack7_lt _)

/-- `OUT_LEN` becomes the number of bytes that DECODE has just written (R31, R40). -/
theorem decodeTransform_inv (h : s.Inv) : (decodeTransform s).Inv :=
  { h with
    outWf := decodedOut_wf s _ h.outWf
    outAscii := decodedOut_ascii _ h.outAscii
    outWritten := fun a (ha : a < s.msgLen) => by
      have hr : Cells.read? (decodeTransform s).out a = _ := read?_decodedOut s s.msgLen a
      simp [hr, ha]
    outLenFits := h.msgLenFits }

theorem finish_inv {failure : Option Failure} (h : s.Inv) (ht : t.Inv) : (finish failure s t).Inv := by
  cases failure with
  | none => exact ht.withStatus .ok
  | some e => exact h.withStatus e.status

theorem exec_keeps_inv (h : s.Inv) (he : exec i s = .next t) : t.Inv := by
  rcases exec_cases he with ⟨-, rfl⟩ | ⟨-, rfl⟩ | ⟨-, rfl⟩ | ⟨-, rfl⟩
  · exact buildTable_inv h
  · exact finish_inv h (encodeTransform_inv (ensureTable_inv h))
  · exact finish_inv h (decodeTransform_inv h)
  · exact (h.withResult (Config.fits_of_le h.sampleCountFits (capacityOf_le _))).withStatus .ok

theorem hostEffect_keeps_inv (h : s.Inv) (he : hostEffect act s = .next t) : t.Inv := by
  rcases hostEffect_cases he with ⟨_, -, hv, rfl⟩ | ⟨_, -, hv, rfl⟩ | ⟨_, _, -, -, rfl⟩ | ⟨_, _, -, -, rfl⟩ |
    ⟨_, -, rfl⟩ | ⟨_, _, -, rfl⟩ | ⟨-, rfl⟩
  · exact h.withSampleCount hv
  · exact h.withMsgLen hv
  · exact h.withCar (Cells.wf_write _ _ h.carWf)
  · exact h.withMsg (Cells.wf_write _ _ h.msgWf)
  · exact h
  · exact h
  · exact State.afterReset_inv _ _ _

end Sys2Proof.Machine
end

section
/-! PROOFS. The statements about the state and its registers (10_state.md). -/

namespace Sys2Proof.Machine

/-- Settles O40: an idle step changes nothing, an operation and a host action each keep the invariant; the one deep case is
BUILD, which must leave the table of `H` over whatever `TAB` held. -/
theorem stepKeepsTheInvariant : Obligations.StepKeepsTheInvariant := by
  intro s t hinv hstep
  rcases step_next_cases hstep with ⟨-, rfl⟩ | ⟨w, i, rest, -, -, he⟩ | ⟨act, rest, -, -, he⟩
  · exact hinv
  · exact exec_keeps_inv (hinv.withPending rest) he
  · exact hostEffect_keeps_inv (hinv.withPending rest) he

/-- Settles O36, from what a step makes of `TABLE_VALID`, and for `TAB` from the invariant. -/
theorem tableValidChangesOnlyByBuildLazyEncodeAndReset :
    Obligations.TableValidChangesOnlyByBuildLazyEncodeAndReset := by
  intro s t hinv hstep
  have htv := step_tableValid_iff hstep
  refine ⟨fun hreset => ?_, fun hno hv => htv.mpr ⟨hno, .inl hv⟩, fun hv ht => ?_, fun hbuild => ?_,
    (stepKeepsTheInvariant s t hinv hstep).tabBuilt⟩
  · exact Bool.eq_false_iff.mpr fun ht => (htv.mp ht).1 hreset
  · obtain ⟨-, hv' | ⟨w, hw, hd⟩⟩ := htv.mp ht
    · simp [hv] at hv'
    · exact ⟨w, hw, hd.imp_right fun ⟨hd, hf⟩ => ⟨hd, lazyBuild_of_encodeFailure_eq_none hf hv⟩⟩
  · exact htv.mpr ⟨by simp [hbuild], .inr ⟨_, hbuild, .inl rfl⟩⟩

/-- Settles O37: neither an operation nor a host action writes a parameter. -/
theorem stepKeepsTheConfiguration : Obligations.StepKeepsTheConfiguration := by
  intro s t hstep
  rcases step_next_cases hstep with ⟨-, rfl⟩ | ⟨w, i, rest, -, -, he⟩ | ⟨act, rest, -, -, he⟩
  · rfl
  · exact (exec_config he).trans (State.withPending_config s rest)
  · exact (hostEffect_config he).trans (State.withPending_config s rest)

theorem Status.code_toNat_le (st : Status) : st.code.toNat ≤ 4 := by
  cases st <;> decide

/-- Every register but `CMD` has a value to read (R25). -/
theorem exists_hostReadReg_eq_ok (s : State) {r : RegName} (hr : r ≠ .cmd) : ∃ n, hostReadReg s r = .ok n := by
  cases r with
  | cmd => exact absurd rfl hr
  | status | sampleCount | msgLen | result | outLen | tableValid => exact ⟨_, rfl⟩

/-- Settles O41: a read that has a value has no effect (R49). -/
theorem hostReadsReturnRegistersAndChangeNothing : Obligations.HostReadsReturnRegistersAndChangeNothing := by
  intro s rest
  refine ⟨rfl, s.status.code_toNat_le, rfl, rfl, rfl, rfl, ?_, fun r hr hp => ?_, fun hp => ?_⟩
  · cases hv : s.tableValid <;> simp [hostReadReg, hv]
  · obtain ⟨n, hn⟩ := exists_hostReadReg_eq_ok (s.withPending rest) hr
    exact (step_of_hostEffect hp rfl).trans (readOutcome_ok hn)
  · exact step_of_hostEffect hp rfl

/-- Settles O42: what a step on the write answers is `hostWriteReg`. -/
theorem hostRegisterWritesReachOnlyTheLengths : Obligations.HostRegisterWritesReachOnlyTheLengths := by
  intro s rest v
  refine ⟨fun hp => ?_, fun hp => ?_, fun r hr hp => ?_⟩
  · rw [step_of_hostEffect hp rfl]
    exact ⟨hostWriteReg_sampleCount_of_fits (s := s.withPending rest),
      hostWriteReg_sampleCount_of_not_fits (s := s.withPending rest)⟩
  · rw [step_of_hostEffect hp rfl]
    exact ⟨hostWriteReg_msgLen_of_fits (s := s.withPending rest),
      hostWriteReg_msgLen_of_not_fits (s := s.withPending rest)⟩
  · rcases hr with rfl | rfl | rfl | rfl <;> exact step_of_hostEffect hp rfl

/-- Settles O3: a command word runs its operation, any other number is a write that `CMD` refuses. -/
theorem stepRunsTheDecodedCommand : Obligations.StepRunsTheDecodedCommand := by
  intro s w rest hp
  exact ⟨fun i hd => step_of_command hp hd,
    fun e he => step_of_hostEffect hp (HostAction.command?_of_decode_error he)⟩

/-- Settles O4, field by field of `State.reset`. -/
theorem resetStateHoldsTheSpecValues : Obligations.ResetStateHoldsTheSpecValues :=
  ⟨rfl, rfl, rfl, rfl, rfl, rfl, fun _ => ⟨rfl, rfl, rfl, rfl⟩, rfl, rfl⟩

/-- Settles O34: of the states an operation can answer, only CAPACITY's has another `RESULT`. -/
theorem onlyCapacityWritesResult : Obligations.OnlyCapacityWritesResult := by
  intro i s t h
  rcases exec_next_cases h with ⟨rfl, rfl⟩ | ⟨rfl, -, rfl⟩ | ⟨rfl, -, rfl⟩ | ⟨rfl, rfl⟩ | ⟨e, hi, rfl⟩
  · rfl
  · rfl
  · rfl
  · rfl
  · rcases hi with ⟨rfl, -⟩ | ⟨rfl, -⟩ <;> rfl

/-- Settles O35: a DECODE that fails leaves a status other than `OK`. -/
theorem onlySuccessfulDecodeWritesOutLen : Obligations.OnlySuccessfulDecodeWritesOutLen := by
  intro i s t h
  rcases exec_next_cases h with ⟨rfl, rfl⟩ | ⟨rfl, -, rfl⟩ | ⟨rfl, -, rfl⟩ | ⟨rfl, rfl⟩ | ⟨e, -, rfl⟩
  · rfl
  · rfl
  · rfl
  · rfl
  · exact (if_neg fun hok => e.status_ne_ok hok.2).symm

/-- Settles O39: every space is empty and every length 0, which fits any width. -/
theorem resetStatesMeetTheInvariant : Obligations.ResetStatesMeetTheInvariant :=
  ⟨State.afterReset_inv _ _ _, State.afterReset_inv⟩

end Sys2Proof.Machine
end

section
/-! PROOFS. The cells as the host accesses them, and the queue of its actions (20_memory.md). -/

namespace Sys2Proof.Machine

variable {i : Instr} {act : HostAction} {s t : State} {sp : Space} {a : Nat} {v : Byte} {rest : List HostAction}

/-! The queue: only a step takes an action off it. -/

/-- No operation adds or takes an action of the host. -/
theorem exec_pending (h : exec i s = .next t) : t.pending = s.pending := by
  rcases exec_next_cases h with ⟨-, rfl⟩ | ⟨-, -, rfl⟩ | ⟨-, -, rfl⟩ | ⟨-, rfl⟩ | ⟨e, -, rfl⟩ <;> rfl

/-- The effect of a host action leaves the further actions as they are, reset included (log 10). -/
theorem hostEffect_pending (h : hostEffect act s = .next t) : t.pending = s.pending := by
  rcases hostEffect_cases h with ⟨_, -, -, rfl⟩ | ⟨_, -, -, rfl⟩ | ⟨_, _, -, -, rfl⟩ | ⟨_, _, -, -, rfl⟩ |
    ⟨_, -, rfl⟩ | ⟨_, _, -, rfl⟩ | ⟨-, rfl⟩ <;> rfl

/-- A block without an action to take is idle (R122). -/
theorem step_of_pending_nil (hp : s.pending = []) : step s = .next s := by
  simp [step, nextCommand, hostTurn, hp]

/-! A step on an access to a cell is that access, with the action taken off the queue. -/

theorem step_writeCell (hp : s.pending = .writeCell sp a v :: rest) :
    step s = hostWriteCell sp a v (s.withPending rest) := step_of_hostEffect hp rfl

theorem step_readCell (hp : s.pending = .readCell sp a :: rest) :
    step s = readOutcome (hostReadCell s sp a) (s.withPending rest) := step_of_hostEffect hp rfl

/-- A host read of a cell that does not exist is refused (R46, U8). -/
theorem hostReadCell_of_ge (h : sp.hostReadable = true) (ha : s.cellCount sp ≤ a) :
    hostReadCell s sp a = .error (.noSuchCell sp a) := by
  rw [hostReadCell_eq h, if_neg (not_lt.2 ha)]

/-! A write of one cell: what each cell of each space reads afterwards. -/

theorem State.cell_withPending (s : State) (acts : List HostAction) (sp : Space) (b : Nat) :
    (s.withPending acts).cell sp b = s.cell sp b := by
  cases sp <;> rfl

theorem State.sample_withCar_write (s : State) (a b : Nat) (v : Byte) :
    (s.withCar (Cells.write s.car a v)).sample b = if b = a then v else s.sample b := by
  rw [State.sample, State.withCar_car, State.withCar_draw, Cells.read?_write, apply_ite (Option.getD · _)]
  rfl

theorem State.messageByte_withMsg_write (s : State) (a b : Nat) (v : Byte) :
    (s.withMsg (Cells.write s.msg a v)).messageByte b = if b = a then v else s.messageByte b := by
  rw [State.messageByte, State.withMsg_msg, State.withMsg_draw, Cells.read?_write, apply_ite (Option.getD · _)]
  rfl

/-- A write of a sample reaches no other cell: the spaces do not alias (R37). -/
theorem State.cell_withCar_write_of_ne (s : State) (v : Byte) {b : Nat} (h : ¬ (sp = .car ∧ b = a)) :
    (s.withCar (Cells.write s.car a v)).cell sp b = s.cell sp b := by
  cases sp with
  | car => rw [State.cell_car, State.sample_withCar_write, if_neg fun hb => h ⟨rfl, hb⟩, State.cell_car]
  | msg | out | tab | hrom => rfl

/-- A write of a message byte reaches no other cell (R37). -/
theorem State.cell_withMsg_write_of_ne (s : State) (v : Byte) {b : Nat} (h : ¬ (sp = .msg ∧ b = a)) :
    (s.withMsg (Cells.write s.msg a v)).cell sp b = s.cell sp b := by
  cases sp with
  | msg => rw [State.cell_msg, State.messageByte_withMsg_write, if_neg fun hb => h ⟨rfl, hb⟩, State.cell_msg]
  | car | out | tab | hrom => rfl

theorem State.cellCount_hrom (s : State) : s.cellCount .hrom = 21 := rfl

/-- The index `7*r + c` is row `r` and column `c` (R66). -/
theorem hromBit_row_column (m : ParityMatrix) (r : Nat) {c : Nat} (hc : c < 7) :
    hromBit m (7 * r + c) = m.bit r c := by
  have hrow : (7 * r + c) / group = r := by simp only [group]; omega
  have hcol : (7 * r + c) % group = c := by simp only [group]; omega
  rw [hromBit, hrow, hcol]

/-- Settles O38: a step takes one action off the queue, and what it then does leaves the queue alone. -/
theorem stepTakesTheHostsActionsInOrder : Obligations.StepTakesTheHostsActionsInOrder := by
  refine fun s => ⟨fun t hstep => ?_, step_of_pending_nil⟩
  rcases step_next_cases hstep with ⟨hp, rfl⟩ | ⟨w, i, rest, hp, -, he⟩ | ⟨act, rest, hp, -, he⟩
  · rw [hp, List.tail_nil]
  · rw [exec_pending he, hp, List.tail_cons, State.withPending_pending]
  · rw [hostEffect_pending he, hp, List.tail_cons, State.withPending_pending]

/-- Settles O43: a write is `hostWriteCell`; each listed space is readable, with the length and the content listed for it. -/
theorem hostCellAccessesFollowTheRights : Obligations.HostCellAccessesFollowTheRights := by
  intro s rest a v
  refine ⟨fun hp => ?_, fun hp => ?_, fun sp hsp hp => ?_, fun sp n x hmem => ?_, fun hp => step_readCell hp⟩
  · rw [step_writeCell hp]
    exact ⟨fun ha => ⟨_, hostWriteCell_car_of_lt (s := s.withPending rest) ha⟩,
      hostWriteCell_car_of_ge (s := s.withPending rest)⟩
  · rw [step_writeCell hp]
    exact ⟨fun ha => ⟨_, hostWriteCell_msg_of_lt (s := s.withPending rest) ha⟩,
      hostWriteCell_msg_of_ge (s := s.withPending rest)⟩
  · rcases hsp with rfl | rfl | rfl <;> exact step_writeCell hp
  · obtain ⟨hr, rfl, rfl⟩ : sp.hostReadable = true ∧ s.cellCount sp = n ∧ s.cell sp a = x := by
      simp only [List.mem_cons, Prod.mk.injEq, List.not_mem_nil, or_false] at hmem
      rcases hmem with ⟨rfl, rfl, rfl⟩ | ⟨rfl, rfl, rfl⟩ | ⟨rfl, rfl, rfl⟩ | ⟨rfl, rfl, rfl⟩ <;>
        exact ⟨rfl, rfl, rfl⟩
    exact ⟨hostReadCell_of_lt hr, fun hp =>
      ⟨fun ha => (step_readCell hp).trans (readOutcome_ok (hostReadCell_of_lt hr ha)),
        fun ha => (step_readCell hp).trans (readOutcome_error (hostReadCell_of_ge hr ha))⟩⟩

/-- Settles O44, from what a write of one cell does to the reads of all cells. -/
theorem hostWrittenCellsReadBackAlone : Obligations.HostWrittenCellsReadBackAlone := by
  intro s rest a v
  refine ⟨fun hp ha => ⟨_, (step_writeCell hp).trans (hostWriteCell_car_of_lt ha), ?_, fun sp b hb => ?_⟩,
    fun hp ha => ⟨_, (step_writeCell hp).trans (hostWriteCell_msg_of_lt ha), ?_, fun sp b hb => ?_⟩⟩
  · rw [hostReadCell_of_lt rfl ha, State.cell_car, State.sample_withCar_write, if_pos rfl]
  · rw [State.cell_withCar_write_of_ne _ _ hb, State.cell_withPending]
  · rw [State.messageByte_withMsg_write, if_pos rfl]
  · rw [State.cell_withMsg_write_of_ne _ _ hb, State.cell_withPending]

/-- Settles O45: `HROM` has 21 cells, and the index of row `r` and column `c` is below 21. -/
theorem hostReadsTheMatrixFromHrom : Obligations.HostReadsTheMatrixFromHrom := by
  refine fun s r c => ⟨fun hrow hcol => ?_, fun a ha => hostReadCell_of_ge rfl ha⟩
  have hlt : 7 * r + c < s.cellCount .hrom := by
    rw [State.cellCount_hrom]
    omega
  rw [hostReadCell_of_lt rfl hlt, State.cell_hrom, hromBit_row_column _ r hcol, Bool.toNat, Bool.cond_eq_ite]

end Sys2Proof.Machine
end

section
/-! PROOFS. The command words of the four operations (30_encoding.md section 3, R67, R68). -/

namespace Sys2Proof

/-- A number of 4 or more is no command word (R67; log 7). -/
theorem decode_of_four_le {w : Nat} (hw : 4 ≤ w) : decode w = .error (.notTwoBits w) := by
  obtain ⟨n, rfl⟩ := Nat.exists_eq_add_of_le' hw
  rfl

@[simp] theorem decode_encodeWord (i : Instr) : decode (encodeWord i) = .ok i := by
  cases i <;> rfl

/-- The operation of a number below 4 has that number as its word; a number of 4 or more has no operation (R68). -/
theorem encodeWord_of_decode_ok {w : Nat} {i : Instr} (h : decode w = .ok i) : encodeWord i = w := by
  rcases lt_or_ge w 4 with hw | hw
  · interval_cases w <;> cases h <;> rfl
  · rw [decode_of_four_le hw] at h
    cases h

/-- Settles O1: the four rows of the opcode map, and the refusal of every other number. -/
theorem commandWordsDecodeToTheirOperations : Obligations.CommandWordsDecodeToTheirOperations :=
  ⟨rfl, rfl, rfl, rfl, fun _ => decode_of_four_le⟩

/-- Settles O2: the word of each operation decodes to it, and no other number does. -/
theorem decodeAndEncodeAgree : Obligations.DecodeAndEncodeAgree :=
  ⟨decode_encodeWord, fun _ _ => encodeWord_of_decode_ok⟩

end Sys2Proof
end

section
/-! PROOFS. The entry that BUILD leaves in each cell of `TAB` (30_encoding.md section 2, R64; 41_table_build.md, R88). -/

namespace Sys2Proof.Machine

-- What the loop of BUILD leaves is said by its laws; Lean is not to run its 128 rounds on a symbolic `H`.
seal fileCandidates

/-- Whatever `TAB` held, BUILD leaves the closed form in the cell of each index pair: the candidate filed there has that
pair as its indices, and the closed form finds the candidate from them (R88). -/
theorem read?_fileCandidates_tableIndex (h : WfMatrix) (t : Cells Entry) (u : ClassIndex) (v : TargetValue) :
    Cells.read? (fileCandidates h nVec t) (tableIndex u v) =
      some (BitVec.ofNat 7 (pack7 (closedFormVector h.mat u v))) := by
  obtain ⟨i, hi, hia⟩ := exists_candidateIndex_eq h (tableIndex_lt u v)
  have hclosed : closedFormVector h.mat u v = bits7 i := by
    obtain ⟨rfl, rfl⟩ := tableIndex_injective hia
    exact closedFormVector_classIdx_syndrome h.wf _
  rw [← hia, read?_fileCandidates_candidateIndex h hi le_rfl, hclosed, pack7_bits7 i hi]

theorem State.entry_buildTable_tableIndex (s : State) (u : ClassIndex) (v : TargetValue) :
    (buildTable s).entry (tableIndex u v) = BitVec.ofNat 7 (pack7 (closedFormVector s.config.h.mat u v)) := by
  have hr : Cells.read? (buildTable s).tab (tableIndex u v) = _ :=
    read?_fileCandidates_tableIndex s.config.h s.tab u v
  rw [State.entry, hr, Option.getD_some]

/-- A packed vector is a 7-bit number, so its entry holds it unchanged (R60, R75). -/
theorem toNat_ofNat_pack7 (w : BitVector7) : (BitVec.ofNat 7 (pack7 w)).toNat = pack7 w := by
  rw [BitVec.toNat_ofNat, Nat.mod_eq_of_lt (pack7_lt w)]

theorem State.tableVector_buildTable (s : State) (u : ClassIndex) (v : TargetValue) :
    (buildTable s).tableVector u v = closedFormVector s.config.h.mat u v := by
  rw [State.tableVector, State.entry_buildTable_tableIndex, toNat_ofNat_pack7, bits7_pack7]

/-- Settles O10: the cell of each index pair, as a vector and as the number that the host reads at index `8*u + v`. -/
theorem buildEqualsTheClosedForm : Obligations.BuildEqualsTheClosedForm := by
  refine fun s => ⟨buildTable s, rfl, fun u v => ⟨s.tableVector_buildTable u v, ?_⟩⟩
  have hread : hostReadCell (buildTable s) .tab (tableIndex u v) = _ := hostReadCell_of_lt rfl (tableIndex_lt u v)
  exact hread.trans (by rw [State.cell_tab, State.entry_buildTable_tableIndex, toNat_ofNat_pack7])

end Sys2Proof.Machine
end

section
/-! PROOFS. The frame of each operation (30_encoding.md section 3, R68). -/

namespace Sys2Proof.Machine

-- What the loop of BUILD leaves is said by its laws; Lean is not to run its 128 rounds on a symbolic `H`.
seal fileCandidates

variable {s : State} {a : Nat}

/-- BUILD reaches no cell beyond the 128 of `TAB`, as the host reads them (R86). -/
theorem State.entry_buildTable_of_ge (s : State) (ha : nVec ≤ a) : (buildTable s).entry a = s.entry a := by
  have hr : Cells.read? (buildTable s).tab a = _ := read?_fileCandidates_of_ge s.config.h nVec ha s.tab
  rw [State.entry, hr]
  rfl

/-- The table that ENCODE reads: the one it finds valid, or the one it builds first (R95). -/
theorem ensureTable_cases (s : State) :
    (s.tableValid = true ∧ ensureTable s = s) ∨ (s.tableValid = false ∧ ensureTable s = buildTable s) := by
  cases hv : s.tableValid with
  | true => exact .inl ⟨rfl, if_pos hv⟩
  | false => exact .inr ⟨rfl, if_neg (by simp [hv])⟩

@[simp] theorem ensureTable_car (s : State) : (ensureTable s).car = s.car := by
  rcases ensureTable_cases s with ⟨-, he⟩ | ⟨-, he⟩ <;> rw [he]
  rfl

@[simp] theorem ensureTable_draw (s : State) : (ensureTable s).draw = s.draw := by
  rcases ensureTable_cases s with ⟨-, he⟩ | ⟨-, he⟩ <;> rw [he]
  rfl

theorem State.entry_ensureTable_of_ge (s : State) (ha : nVec ≤ a) : (ensureTable s).entry a = s.entry a := by
  rcases ensureTable_cases s with ⟨-, he⟩ | ⟨-, he⟩ <;> rw [he]
  exact s.entry_buildTable_of_ge ha

/-- An ENCODE that succeeds builds no table over a valid one, and none where lazy building is off (R95). -/
theorem ensureTable_tab_of_encodeFailure_eq_none (hf : s.encodeFailure = none)
    (h : s.tableValid = true ∨ s.config.lazyBuild = false) :
    s.tableValid = true ∧ (ensureTable s).tab = s.tab := by
  rcases ensureTable_cases s with ⟨hv, he⟩ | ⟨hv, -⟩
  · exact ⟨hv, congrArg State.tab he⟩
  · have hlazy := lazyBuild_of_encodeFailure_eq_none hf hv
    simp [hv, hlazy] at h

/-- A sample that belongs to no group of the message lies beyond all of them (R45). -/
theorem seven_mul_le_of_forall_ne_sampleIndex {l : Nat}
    (h : ∀ j k, j < l → k < 7 → a ≠ sampleIndex j k) : 7 * l ≤ a := by
  by_contra hlt
  exact h (a / 7) (a % 7) (by omega) (by omega) (by simp only [sampleIndex, group]; omega)

/-- Settles O33: in each case of the state that an operation answers, the fields it leaves are those of `s`; the cells are
read by the laws of the loops. -/
theorem eachOperationWritesOnlyItsOwnState : Obligations.EachOperationWritesOnlyItsOwnState := by
  intro i s t h
  rcases exec_next_cases h with ⟨rfl, rfl⟩ | ⟨rfl, hf, rfl⟩ | ⟨rfl, -, rfl⟩ | ⟨rfl, rfl⟩ | ⟨e, hi, rfl⟩
  · exact ⟨rfl, fun a ha => s.entry_buildTable_of_ge ha⟩
  · refine ⟨rfl, fun hv => ?_, fun a ha => ?_, fun a ha => ?_⟩
    · obtain ⟨hvalid, htab⟩ := ensureTable_tab_of_encodeFailure_eq_none hf hv
      exact ⟨htab, hvalid.symm⟩
    · rw [← s.entry_ensureTable_of_ge ha, State.entry, State.entry, ensureTable_draw]
    · have hread : Cells.read? (encodedCarrier (ensureTable s) s.msgLen) a = Cells.read? s.car a := by
        rw [read?_encodedCarrier, if_neg (not_lt.2 (seven_mul_le_of_forall_ne_sampleIndex ha)), ensureTable_car]
      exact congrArg (Option.getD · _) hread
  · refine ⟨rfl, fun a ha => ?_⟩
    have hread : Cells.read? (decodedOut s s.msgLen) a = Cells.read? s.out a := by
      rw [read?_decodedOut, if_neg (not_lt.2 ha)]
    exact congrArg (Option.getD · _) hread
  · rfl
  · rcases hi with ⟨rfl, -⟩ | ⟨rfl, -⟩
    · exact ⟨rfl, fun _ => ⟨rfl, rfl⟩, fun _ _ => rfl, fun _ _ => rfl⟩
    · exact ⟨rfl, fun _ _ => rfl⟩

end Sys2Proof.Machine
end

section
/-! PROOFS. The LOAD statement: its host writes, one a step, store its bytes (30_encoding.md section 5, R72). -/

namespace Sys2Proof.Machine

/-- A space after the bytes of a list are written to it one after another, the first at index `a`. -/
def Cells.writeFrom {α : Type} (m : Cells α) (a : Nat) (vs : List α) : Cells α :=
  match vs with
  | [] => m
  | v :: rest => writeFrom (write m a v) (a + 1) rest

theorem Cells.read?_writeFrom_of_lt {α : Type} (m : Cells α) {a b : Nat} (hb : b < a) (vs : List α) :
    read? (writeFrom m a vs) b = read? m b := by
  induction vs generalizing m a with
  | nil => rfl
  | cons v vs ih => rw [writeFrom, ih _ (by omega), read?_write, if_neg (by omega)]

/-- All that the writes do to the reads from index `a` on: the list's values, and beyond them what was there. -/
theorem Cells.read?_writeFrom_add {α : Type} (m : Cells α) (a i : Nat) (vs : List α) :
    read? (writeFrom m a vs) (a + i) = vs[i]?.or (read? m (a + i)) := by
  induction vs generalizing m a i with
  | nil => rfl
  | cons v vs ih =>
    rw [writeFrom]
    cases i with
    | zero => rw [read?_writeFrom_of_lt _ (by omega), read?_write, if_pos (by omega)]; rfl
    | succ i =>
      rw [show a + (i + 1) = a + 1 + i by omega, ih, read?_write, if_neg (by omega), List.getElem?_cons_succ]

theorem Cells.read?_writeFrom_zero {α : Type} (m : Cells α) (i : Nat) (vs : List α) :
    read? (writeFrom m 0 vs) i = vs[i]?.or (read? m i) := by
  simpa using read?_writeFrom_add m 0 i vs

/-- The bytes of a list stored in a space that LOAD names, the first at index `a` (R72). -/
def State.store (s : State) (sp : LoadSpace) (a : Nat) (bs : List Byte) : State :=
  match sp with
  | .car => s.withCar (Cells.writeFrom s.car a bs)
  | .msg => s.withMsg (Cells.writeFrom s.msg a bs)

variable {s : State} {sp : LoadSpace} {a : Nat} {rest : List HostAction}

theorem State.store_nil (s : State) (sp : LoadSpace) (a : Nat) : s.store sp a [] = s := by
  cases sp <;> rfl

/-- Storing a list is storing its first byte, then the others after it, whatever the queue. -/
theorem State.store_cons (s : State) (sp : LoadSpace) (a : Nat) (b : Byte) (bs : List Byte)
    (acts acts' : List HostAction) :
    (((s.withPending acts).store sp a [b]).store sp (a + 1) bs).withPending acts' =
      (s.store sp a (b :: bs)).withPending acts' := by
  cases sp <;> rfl

/-- Storing bytes changes no length register (R46). -/
theorem State.cellCount_store (s : State) (sp : LoadSpace) (acts : List HostAction) (a : Nat) (bs : List Byte) :
    ((s.withPending acts).store sp a bs).cellCount sp.space = s.cellCount sp.space := by
  cases sp <;> rfl

theorem State.store_pending (s : State) (sp : LoadSpace) (a : Nat) (bs : List Byte) :
    (s.store sp a bs).pending = s.pending := by
  cases sp <;> rfl

/-- A step on a host write to a cell that exists stores its byte (R46). -/
theorem step_writeCell_eq_store {b : Byte} (hp : s.pending = .writeCell sp.space a b :: rest)
    (ha : a < s.cellCount sp.space) : step s = .next ((s.withPending rest).store sp a [b]) := by
  rw [step_writeCell hp]
  cases sp with
  | car => exact hostWriteCell_car_of_lt ha
  | msg => exact hostWriteCell_msg_of_lt ha

/-- The writes of a LOAD run to their end where every cell exists, one a step (R72; log 12). -/
theorem run_loadActions (bs : List Byte) (hp : s.pending = loadActions sp.space a bs ++ rest)
    (hlen : a + bs.length ≤ s.cellCount sp.space) :
    Host.Core.run Sys2Proof.core bs.length s = .next ((s.store sp a bs).withPending rest) := by
  induction bs generalizing s a with
  | nil =>
    have hs : s.withPending rest = s := by rw [← show s.pending = rest from hp]; rfl
    rw [State.store_nil, hs]
    rfl
  | cons b bs ih =>
    rw [List.length_cons] at hlen ⊢
    have hstep := step_writeCell_eq_store (rest := loadActions sp.space (a + 1) bs ++ rest) hp (by omega)
    have hlen' : a + 1 + bs.length ≤ s.cellCount sp.space := by omega
    rw [run_succ_of_step hstep, ih (State.store_pending _ _ _ _) (by rwa [State.cellCount_store]), State.store_cons]

theorem State.sample_store (s : State) (acts : List HostAction) (bs : List Byte) (i : Nat) :
    ((s.store .car 0 bs).withPending acts).sample i = bs[i]?.getD (s.sample i) := by
  have hr : Cells.read? ((s.store .car 0 bs).withPending acts).car i = _ := Cells.read?_writeFrom_zero s.car i bs
  rw [State.sample, hr, Option.getD_or]
  rfl

theorem State.messageByte_store (s : State) (acts : List HostAction) (bs : List Byte) (i : Nat) :
    ((s.store .msg 0 bs).withPending acts).messageByte i = bs[i]?.getD (s.messageByte i) := by
  have hr : Cells.read? ((s.store .msg 0 bs).withPending acts).msg i = _ := Cells.read?_writeFrom_zero s.msg i bs
  rw [State.messageByte, hr, Option.getD_or]
  rfl

/-- Settles O47: the state that the run answers is `s` with the bytes stored from index 0 and the writes taken off. -/
theorem loadStatementStoresItsBytes : Obligations.LoadStatementStoresItsBytes := by
  refine fun s bs rest => ⟨fun hp hlen => ?_, fun hp hlen => ?_⟩
  · refine ⟨_, run_loadActions (sp := .car) bs hp ((Nat.zero_add _).trans_le hlen), rfl, fun i b hi => ?_, fun a ha => ?_⟩
    · rw [State.sample_store, hi, Option.getD_some]
    · rw [State.sample_store, List.getElem?_eq_none ha, Option.getD_none]
  · refine ⟨_, run_loadActions (sp := .msg) bs hp ((Nat.zero_add _).trans_le hlen), rfl, fun i b hi => ?_, fun a ha => ?_⟩
    · rw [State.messageByte_store, hi, Option.getD_some]
    · rw [State.messageByte_store, List.getElem?_eq_none ha, Option.getD_none]

end Sys2Proof.Machine
end

section
/-! PROOFS. The syndrome as a parity of the selected positions, and its linearity (40_bitfield.md, R79). -/

namespace Sys2Proof.Machine

/-- The sum over GF(2) of a property's values along a list is 1 exactly where the property holds an odd number of times. -/
theorem foldr_xor_eq_true_iff {α : Type} (p : α → Bool) (l : List α) :
    l.foldr (fun c acc => p c ^^ acc) false = true ↔ (l.filter p).length % 2 = 1 := by
  induction l with
  | nil => simp
  | cons c l ih =>
    rw [List.foldr_cons]
    cases hc : p c with
    | false => rw [Bool.false_xor, List.filter_cons_of_neg (by simp [hc]), ih]
    | true =>
      rw [Bool.true_xor, List.filter_cons_of_pos hc, List.length_cons, Bool.not_eq_true', ← Bool.not_eq_true, ih]
      omega

theorem foldr_xor_xor {α : Type} (p q : α → Bool) (l : List α) :
    l.foldr (fun c acc => (p c ^^ q c) ^^ acc) false =
      (l.foldr (fun c acc => p c ^^ acc) false ^^ l.foldr (fun c acc => q c ^^ acc) false) := by
  induction l with
  | nil => rfl
  | cons c l ih =>
    simp only [List.foldr_cons, ih]
    simp only [Bool.xor_assoc, Bool.xor_left_comm]

@[simp] theorem BitVector7.pos_add (a b : BitVector7) (k : Nat) : (a.add b).pos k = (a.pos k ^^ b.pos k) := by
  unfold BitVector7.pos
  split <;> rfl

/-- The product of a row with a vector is the sum over the 7 positions (R18). -/
theorem rowParity_eq_foldr (row w : BitVector7) :
    rowParity row w = (List.range 7).foldr (fun c acc => (row.pos c && w.pos c) ^^ acc) false := by
  rw [← Bool.xor_false (rowParity row w)]
  simp only [rowParity, Bool.xor_assoc]
  rfl

theorem rowParity_eq_true_iff (row w : BitVector7) :
    rowParity row w = true ↔ ((List.range 7).filter (fun c => row.pos c && w.pos c)).length % 2 = 1 := by
  rw [rowParity_eq_foldr, foldr_xor_eq_true_iff]

@[simp] theorem rowParity_bits7_zero (row : BitVector7) : rowParity row (bits7 0) = false := by
  simp [rowParity, bits7]

theorem rowParity_add (row a b : BitVector7) :
    rowParity row (a.add b) = (rowParity row a ^^ rowParity row b) := by
  simp only [rowParity_eq_foldr, BitVector7.pos_add, Bool.and_xor_distrib_left, foldr_xor_xor]

theorem syndrome_bits7_zero (m : ParityMatrix) : syndrome m (bits7 0) = ⟨false, false, false⟩ := by
  simp only [syndrome, rowParity_bits7_zero]

theorem syndrome_add (m : ParityMatrix) (a b : BitVector7) :
    syndrome m (a.add b) = (syndrome m a).add (syndrome m b) := by
  simp only [syndrome, rowParity_add, BitVector3.add]

/-- Settles O15: each syndrome bit is the parity of one row, and a row's parity is additive. -/
theorem syndromeIsTheParityOfSelectedPositions : Obligations.SyndromeIsTheParityOfSelectedPositions := fun m a b =>
  ⟨rowParity_eq_true_iff m.row0 a, rowParity_eq_true_iff m.row1 a, rowParity_eq_true_iff m.row2 a,
    syndrome_bits7_zero m, syndrome_add m a b⟩

end Sys2Proof.Machine
end

section
/-! PROOFS. A sample is its upper bits and its LSB, of which LSBMERGE replaces the second (40_bitfield.md, R81, R82). -/

namespace Sys2Proof.Machine

theorem lsb_toNat (b : Byte) : (lsb b).toNat = b.toNat % 2 := by
  revert b
  decide

theorem toNat_eq_upper_add_lsb (b : Byte) : b.toNat = 2 * (b >>> 1).toNat + (lsb b).toNat := by
  rw [lsb_toNat, BitVec.toNat_ushiftRight, Nat.shiftRight_one]
  omega

/-- The upper bits and the LSB determine a sample. -/
theorem byte_ext_upper_lsb {b c : Byte} (hupper : b >>> 1 = c >>> 1) (hlsb : lsb b = lsb c) : b = c :=
  BitVec.eq_of_toNat_eq (by rw [toNat_eq_upper_add_lsb, hupper, hlsb, ← toNat_eq_upper_add_lsb])

theorem lsbMerge_lsb (b : Byte) : lsbMerge b (lsb b) = b :=
  byte_ext_upper_lsb (lsbMerge_upper b _) (lsb_lsbMerge b _)

theorem toNat_lsbMerge (b : Byte) (x : Bool) : (lsbMerge b x).toNat = 2 * (b >>> 1).toNat + x.toNat := by
  rw [toNat_eq_upper_add_lsb, lsbMerge_upper, lsb_lsbMerge]

theorem bitWord_eq_ite (n : Nat) (x : Bool) : bitWord n x = if x then 1#n else 0#n := by
  cases x <;> rfl

/-- Settles O16: `b` and its merged sample have the same upper bits, so their values differ by their LSBs only. -/
theorem lsbMergeReplacesOnlyTheLsb : Obligations.LsbMergeReplacesOnlyTheLsb := by
  intro b x
  have hb := toNat_eq_upper_add_lsb b
  have hm := toNat_lsbMerge b x
  have hlsb := (lsb b).toNat_le
  have hx := x.toNat_le
  refine ⟨?_, lsb_lsbMerge b x, lsbMerge_upper b x, lsbMerge_lsb b, by omega, by omega⟩
  rw [lsbMerge, bitWord_eq_ite]

end Sys2Proof.Machine
end

section
/-! PROOFS. The table as a bijection between index pairs and vectors, and the table that BUILD leaves (41_table_build.md,
R86, R87, R90; 00_scope.md, R11). -/

namespace Sys2Proof.Machine

-- What the loop of BUILD leaves is said by its laws; Lean is not to run its 128 rounds on a symbolic `H`.
seal fileCandidates

/-- Under `WF(H)` an index pair belongs to the closed form and to no other vector: the candidate that BUILD files in the
pair's cell has that pair as its indices (R87, R88). -/
theorem classIdx_syndrome_eq_iff (h : WfMatrix) (w : BitVector7) (u : ClassIndex) (v : TargetValue) :
    classIdx w = u ∧ packV (syndrome h.mat w) = v ↔ w = closedFormVector h.mat u v := by
  constructor
  · rintro ⟨rfl, rfl⟩
    exact (closedFormVector_classIdx_syndrome h.wf w).symm
  · rintro rfl
    obtain ⟨i, -, hia⟩ := exists_candidateIndex_eq h (tableIndex_lt u v)
    obtain ⟨rfl, rfl⟩ := tableIndex_injective hia
    rw [closedFormVector_classIdx_syndrome h.wf]
    exact ⟨rfl, rfl⟩

/-- Columns 0, 1, 3 of a matrix without `WF(H)` are linearly dependent: a vector other than zero, with bits at positions
0, 1, 3 only, has the syndrome zero. The determinant and the three sums read the 9 bits of those columns (R11). -/
theorem exists_syndrome_eq_zero_of_not_wf {m : ParityMatrix} (hm : m.wf = false) :
    ∃ x y z : Bool, ⟨x, y, false, z, false, false, false⟩ ≠ bits7 0 ∧
      syndrome m ⟨x, y, false, z, false, false, false⟩ = ⟨false, false, false⟩ := by
  obtain ⟨⟨a0, a1, a2, a3, a4, a5, a6⟩, ⟨b0, b1, b2, b3, b4, b5, b6⟩, ⟨c0, c1, c2, c3, c4, c5, c6⟩⟩ := m
  simp only [ParityMatrix.wf, ParityMatrix.det] at hm
  simp only [syndrome, rowParity, Bool.and_false, Bool.xor_false]
  revert a0 a1 a3 b0 b1 b3 c0 c1 c3
  decide

/-- Settles O9: under `WF(H)` the one vector is the closed form; without it, zero and a vector of the kernel share the
index pair `(0, 0)`. -/
theorem syndromeIndexesAreUniqueExactlyWhenWellFormed :
    Obligations.SyndromeIndexesAreUniqueExactlyWhenWellFormed := by
  intro m
  constructor
  · intro hunique
    by_contra hm
    obtain ⟨x, y, z, hne, hsyn⟩ := exists_syndrome_eq_zero_of_not_wf (Bool.eq_false_of_not_eq_true hm)
    have hzero : classIdx (bits7 0) = 0 ∧ packV (syndrome m (bits7 0)) = 0 :=
      ⟨(classIdx_eq_iff _ _).mpr rfl, by rw [syndrome_bits7_zero]; rfl⟩
    have hkernel : classIdx ⟨x, y, false, z, false, false, false⟩ = 0 ∧
        packV (syndrome m ⟨x, y, false, z, false, false, false⟩) = 0 :=
      ⟨(classIdx_eq_iff _ _).mpr rfl, by rw [hsyn]; rfl⟩
    exact hne ((hunique 0 0).unique hkernel hzero)
  · intro hm u v
    exact ⟨_, (classIdx_syndrome_eq_iff ⟨m, hm⟩ _ u v).mpr rfl,
      fun w hw => (classIdx_syndrome_eq_iff ⟨m, hm⟩ w u v).mp hw⟩

/-- Settles O8: the entry of an index pair is the closed form, the one vector of that pair; so equal entries of a row have
equal syndromes. -/
theorem buildFilesEachVectorUnderItsIndices : Obligations.BuildFilesEachVectorUnderItsIndices := by
  refine fun s => ⟨buildTable s, rfl, rfl, rfl, fun u v => ?_⟩
  have hiff : ∀ (w : BitVector7) (v : TargetValue),
      classIdx w = u ∧ packV (syndrome s.config.h.mat w) = v ↔ w = (buildTable s).tableVector u v := fun w v => by
    rw [State.tableVector_buildTable]
    exact classIdx_syndrome_eq_iff s.config.h w u v
  obtain ⟨hu, hv⟩ := (hiff _ v).mpr rfl
  refine ⟨hu, hv, fun w hwu hwv => (hiff w v).mp ⟨hwu, hwv⟩, fun v' hentry => ?_⟩
  have hvector : (buildTable s).tableVector u v = (buildTable s).tableVector u v' :=
    congrArg (fun e : Entry => bits7 e.toNat) hentry
  exact hv.symm.trans ((hiff _ v').mpr hvector).2

/-- Settles O11: every index below 128 is the cell of some candidate, and the loop reaches no other. -/
theorem buildWritesAllEntriesAndNothingElse : Obligations.BuildWritesAllEntriesAndNothingElse := by
  refine fun s => ⟨buildTable s, rfl, rfl, fun a ha => ?_, fun a ha => ?_⟩ <;> rw [buildTable_eq]
  · obtain ⟨i, hi, rfl⟩ := exists_candidateIndex_eq s.config.h ha
    rw [read?_fileCandidates_candidateIndex s.config.h hi le_rfl]
    exact Option.some_ne_none _
  · exact read?_fileCandidates_of_ge s.config.h nVec ha s.tab

/-- Settles O12: a valid table is the table of `H`, which the loop leaves again. -/
theorem buildAgainChangesOnlyStatus : Obligations.BuildAgainChangesOnlyStatus := by
  intro s hinv hvalid
  have htab : fileCandidates s.config.h nVec s.tab = s.tab :=
    (fileCandidates_eq_builtTable s.config.h hinv.tabWf hinv.tabInRange).trans (hinv.tabBuilt hvalid).symm
  have hbuild : buildTable s = { s with status := .ok } := by rw [buildTable_eq, htab, ← hvalid]
  exact congrArg Host.Outcome.next hbuild

end Sys2Proof.Machine
end

section
/-! PROOFS. What an ENCODE answers by its checks, and which operands pass them (42_encode.md, R92 to R95). -/

namespace Sys2Proof.Machine

-- Nothing here looks into the table: Lean would otherwise run the 128 rounds of BUILD on a symbolic `H`.
seal fileCandidates

variable {s t : State} {e : Failure}

@[simp] theorem succeed_status (s : State) : (succeed s).status = .ok := rfl

theorem exec_encode_eq (s : State) :
    exec .encode s = .next (finish s.encodeFailure s (encodeTransform (ensureTable s))) := rfl

theorem exec_encode_of_none (hf : s.encodeFailure = none) :
    exec .encode s = .next (succeed (encodeTransform (ensureTable s))) := by
  rw [exec_encode_eq, hf, finish]

theorem exec_encode_of_some (hf : s.encodeFailure = some e) :
    exec .encode s = .next { s with status := e.status } := by
  rw [exec_encode_eq, hf, finish, raiseFailure_eq]

/-- All that an ENCODE can answer: the transform over the table it ensured, or its failure and nothing else. -/
theorem exec_encode_cases (h : exec .encode s = .next t) :
    (s.encodeFailure = none ∧ t = succeed (encodeTransform (ensureTable s))) ∨
      ∃ e, s.encodeFailure = some e ∧ t = { s with status := e.status } := by
  obtain rfl := Host.Outcome.next.inj ((exec_encode_eq s).symm.trans h)
  exact finish_cases _ _ _

theorem eq_succeed_of_exec_encode (h : exec .encode s = .next t) (hok : t.status = .ok) :
    s.encodeFailure = none ∧ t = succeed (encodeTransform (ensureTable s)) := by
  rcases exec_encode_cases h with hsucceed | ⟨e, -, rfl⟩
  · exact hsucceed
  · exact absurd hok e.status_ne_ok

/-- The operands that pass the checks of R93 and R94: a group for every byte leaves the message below the capacity. -/
theorem State.not_invalidInput_and_samples_iff (s : State) :
    ¬ s.InvalidInput ∧ 7 * s.msgLen ≤ s.sampleCount ↔
      1 ≤ s.msgLen ∧ 7 * s.msgLen ≤ s.sampleCount ∧ s.AsciiMessage := by
  simp only [State.InvalidInput, State.AsciiMessage, not_or, not_exists, not_and, not_le]
  constructor
  · rintro ⟨⟨-, hlen, -, hascii⟩, hsamples⟩
    exact ⟨by omega, hsamples, hascii⟩
  · rintro ⟨hlen, hsamples, hascii⟩
    exact ⟨⟨by omega, by omega, by omega, hascii⟩, hsamples⟩

theorem State.encodeFailure_eq_none_iff (s : State) : s.encodeFailure = none ↔ s.EncodeReady := by
  have hready : s.EncodeReady ↔ (1 ≤ s.msgLen ∧ 7 * s.msgLen ≤ s.sampleCount ∧ s.AsciiMessage) ∧
      (s.tableValid = true ∨ s.config.lazyBuild = true) := by
    simp only [State.EncodeReady, and_assoc]
  rw [hready, ← s.not_invalidInput_and_samples_iff, ← s.inputInvalid_iff]
  rcases s.encodeFailure_cases with ⟨hi, hf⟩ | ⟨hi, hn, hf⟩ | ⟨hi, hn, hv, hl, hf⟩ | ⟨hi, hn, ht, hf⟩
  · simp [hf, hi]
  · simp [hf, hn]
  · simp [hf, hv, hl]
  · simp [hf, hi, hn, ht]

theorem State.encodeFailure_eq_noTable_iff (s : State) :
    s.encodeFailure = some .noTable ↔
      (1 ≤ s.msgLen ∧ 7 * s.msgLen ≤ s.sampleCount ∧ s.AsciiMessage) ∧
        s.tableValid = false ∧ s.config.lazyBuild = false := by
  rw [← s.not_invalidInput_and_samples_iff, ← s.inputInvalid_iff]
  rcases s.encodeFailure_cases with ⟨hi, hf⟩ | ⟨hi, hn, hf⟩ | ⟨hi, hn, hv, hl, hf⟩ | ⟨hi, hn, ht, hf⟩
  · simp [hf, hi]
  · simp [hf, hn]
  · simp [hf, hi, hn, hv, hl]
  · rcases ht with ht | ht <;> simp [hf, ht]

theorem State.encodeFailure_eq_overrun_iff (s : State) :
    s.encodeFailure = some .overrun ↔ ¬ s.InvalidInput ∧ s.sampleCount < 7 * s.msgLen := by
  rw [← s.inputInvalid_iff]
  rcases s.encodeFailure_cases with ⟨hi, hf⟩ | ⟨hi, hn, hf⟩ | ⟨hi, hn, hv, hl, hf⟩ | ⟨hi, hn, ht, hf⟩
  · simp [hf, hi]
  · simp [hf, hi, hn]
  · simp [hf, hn]
  · simp [hf, hn]

/-- The checks of ENCODE read the lengths, `TABLE_VALID`, `LAZY_BUILD` and the message below its length (R93 to R95). -/
theorem State.encodeFailure_congr {s₁ s₂ : State} (hlazy : s₁.config.lazyBuild = s₂.config.lazyBuild)
    (hvalid : s₁.tableValid = s₂.tableValid) (hcount : s₁.sampleCount = s₂.sampleCount)
    (hlen : s₁.msgLen = s₂.msgLen) (hmsg : ∀ i, i < s₁.msgLen → s₁.messageByte i = s₂.messageByte i) :
    s₁.encodeFailure = s₂.encodeFailure := by
  have hascii : s₁.messageIsAscii = s₂.messageIsAscii := by
    rw [Bool.eq_iff_iff, State.messageIsAscii_iff, State.messageIsAscii_iff, ← hlen]
    exact forall₂_congr fun i hi => by rw [hmsg i hi]
  have hinput : s₁.inputInvalid = s₂.inputInvalid := by
    rw [State.inputInvalid, State.inputInvalid, hcount, hlen, hascii]
  rw [State.encodeFailure, State.encodeFailure, hinput, hlazy, hvalid, hcount, hlen]

theorem Failure.status_eq_noTable_iff : e.status = .noTable ↔ e = .noTable := by
  cases e <;> simp [Failure.status]

/-! The table that ENCODE ensures: building it first writes `TAB`, `TABLE_VALID` and `STATUS` only (R95). -/

@[simp] theorem ensureTable_of_tableValid (hv : s.tableValid = true) : ensureTable s = s := if_pos hv

theorem ensureTable_eq (s : State) :
    ensureTable s = { s with tab := (ensureTable s).tab, tableValid := true, status := (ensureTable s).status } := by
  rcases ensureTable_cases s with ⟨hv, he⟩ | ⟨-, he⟩ <;> rw [he]
  · rw [← hv]
  · rfl

@[simp] theorem ensureTable_tableValid (s : State) : (ensureTable s).tableValid = true := by rw [ensureTable_eq]
@[simp] theorem ensureTable_msgLen (s : State) : (ensureTable s).msgLen = s.msgLen := by rw [ensureTable_eq]
@[simp] theorem ensureTable_config (s : State) : (ensureTable s).config = s.config := by rw [ensureTable_eq]

@[simp] theorem State.messageBits_ensureTable (s : State) (i : Nat) :
    (ensureTable s).messageBits i = s.messageBits i := by
  rw [ensureTable_eq]
  rfl

@[simp] theorem State.sample_ensureTable (s : State) (a : Nat) : (ensureTable s).sample a = s.sample a :=
  State.sample_congr (ensureTable_car s) (ensureTable_draw s) a

/-- The state that a successful ENCODE answers, with everything that stays (R98). -/
theorem succeed_encodeTransform_ensureTable_eq (s : State) :
    succeed (encodeTransform (ensureTable s)) =
      { s with car := encodedCarrier (ensureTable s) s.msgLen, tab := (ensureTable s).tab, tableValid := true,
               status := .ok } := by
  rw [encodeTransform_ensureTable_eq]
  rfl

end Sys2Proof.Machine
end

section
/-! PROOFS. The samples after a successful ENCODE (42_encode.md, R96, R97). -/

namespace Sys2Proof.Machine

variable {s : State} {i k : Nat}

/-! The samples below `7*n` are those of the first `n` groups, each at its relative position (R45). -/

theorem sampleIndex_lt {n : Nat} (hi : i < n) (hk : k < 7) : sampleIndex i k < 7 * n := by
  simp only [sampleIndex, group]
  omega

theorem sampleIndex_div (hk : k < 7) : sampleIndex i k / 7 = i := by
  simp only [sampleIndex, group]
  omega

theorem sampleIndex_mod (hk : k < 7) : sampleIndex i k % 7 = k := by
  simp only [sampleIndex, group]
  omega

theorem State.sample_succeed_encodeTransform (s : State) (a : Nat) :
    (succeed (encodeTransform (ensureTable s))).sample a =
      if a < 7 * s.msgLen then lsbMerge (s.sample a) (((ensureTable s).replacement (a / 7)).pos (a % 7))
      else s.sample a := by
  have hsample := (ensureTable s).sample_encodeTransform a
  rwa [ensureTable_msgLen, State.sample_ensureTable] at hsample

/-- Position `k` of byte `i`'s replacement goes to sample `7*i+k` (R96 step 5). -/
theorem State.sample_succeed_encodeTransform_sampleIndex (hi : i < s.msgLen) (hk : k < 7) :
    (succeed (encodeTransform (ensureTable s))).sample (sampleIndex i k) =
      lsbMerge (s.sample (sampleIndex i k)) (((ensureTable s).replacement i).pos k) := by
  rw [State.sample_succeed_encodeTransform, if_pos (sampleIndex_lt hi hk), sampleIndex_div hk, sampleIndex_mod hk]

/-- After an ENCODE the LSBs of a group are the replacement of its byte. -/
theorem State.groupLsbs_succeed_encodeTransform (hi : i < s.msgLen) :
    (succeed (encodeTransform (ensureTable s))).groupLsbs i = (ensureTable s).replacement i := by
  have hlsb : ∀ k < 7, lsb ((succeed (encodeTransform (ensureTable s))).sample (sampleIndex i k)) =
      ((ensureTable s).replacement i).pos k := fun k hk => by
    rw [State.sample_succeed_encodeTransform_sampleIndex hi hk, lsb_lsbMerge]
  simp [State.groupLsbs, hlsb, BitVector7.pos]

/-- A valid table holds the closed form in each entry: BUILD would leave it as it is (R88, R90). -/
theorem State.Inv.tableVector_eq (h : s.Inv) (hv : s.tableValid = true) (u : ClassIndex) (v : TargetValue) :
    s.tableVector u v = closedFormVector s.config.h.mat u v := by
  have hbuild : buildTable s = { s with status := .ok } :=
    Host.Outcome.next.inj (buildAgainChangesOnlyStatus s h hv)
  rw [← State.tableVector_buildTable, hbuild]
  rfl

/-- The replacement of a byte depends on the byte and on `H` only (R96 steps 1 to 4). -/
theorem State.Inv.replacement_ensureTable (h : s.Inv) (i : Nat) :
    (ensureTable s).replacement i =
      closedFormVector s.config.h.mat (classIdx (s.messageBits i)) (target (s.messageBits i)) := by
  rw [State.replacement, (ensureTable_inv h).tableVector_eq (ensureTable_tableValid s), State.messageBits_ensureTable,
    ensureTable_config]

theorem direct_bits_eq_of_classIdx_eq {w w' : BitVector7} (h : classIdx w = classIdx w') :
    w.b2 = w'.b2 ∧ w.b4 = w'.b4 ∧ w.b5 = w'.b5 ∧ w.b6 = w'.b6 := by
  simpa using ((classIdx_eq_iff w _).mp h).trans ((classIdx_eq_iff w' _).mp rfl).symm

theorem packV_injective : Function.Injective packV := Function.LeftInverse.injective vbits_packV

end Sys2Proof.Machine
end

section
/-! PROOFS. An ENCODE whose LSBs are already in place leaves the carrier as it is, in any form of its list (R100). -/

namespace Sys2Proof.Machine

theorem mergeSample_of_lsb {a : Nat} {x : Bool} {m : Memory} (draw : Nat)
    (h : (Cells.read? m a).map lsb = some x) : mergeSample draw a x m = m := by
  obtain ⟨b, hb, rfl⟩ := Option.map_eq_some_iff.mp h
  exact Cells.modify_of_read? hb (lsbMerge_lsb b)

theorem writeGroup_of_lsb {i : Nat} {w : BitVector7} {m : Memory} (draw : Nat)
    (h : ∀ k < 7, (Cells.read? m (sampleIndex i k)).map lsb = some (w.pos k)) : writeGroup draw i w m = m := by
  have hmerge : ∀ k < 7, mergeSample draw (sampleIndex i k) (w.pos k) m = m :=
    fun k hk => mergeSample_of_lsb draw (h k hk)
  simp [writeGroup, hmerge]

theorem encodedCarrier_of_lsb {s : State} {n : Nat}
    (h : ∀ i < n, ∀ k < 7, (Cells.read? s.car (sampleIndex i k)).map lsb = some ((s.replacement i).pos k)) :
    encodedCarrier s n = s.car := by
  induction n with
  | zero => rfl
  | succ i ih =>
    rw [encodedCarrier, ih fun j hj => h j (by omega)]
    exact writeGroup_of_lsb s.draw (h i (by omega))

/-- The carrier that the transform leaves has every replacement in place. -/
theorem map_lsb_read?_encodedCarrier (s : State) {i k n : Nat} (hi : i < n) (hk : k < 7) :
    (Cells.read? (encodedCarrier s n) (sampleIndex i k)).map lsb = some ((s.replacement i).pos k) := by
  rw [read?_encodedCarrier, if_pos (sampleIndex_lt hi hk), sampleIndex_div hk, sampleIndex_mod hk, Option.map_some,
    lsb_lsbMerge]

/-- The transform again changes nothing: same message, same table, and each replacement in place. -/
theorem encodeTransform_succeed_encodeTransform (s : State) :
    encodeTransform (succeed (encodeTransform s)) = succeed (encodeTransform s) :=
  congrArg (State.withCar (succeed (encodeTransform s)))
    (encodedCarrier_of_lsb fun _ hi _ hk => map_lsb_read?_encodedCarrier s hi hk)

/-- The writes of two groups reach different samples, so either order leaves the same canonical carrier (R96). -/
theorem writeGroup_comm (d : Nat) {i j : Nat} (w w' : BitVector7) {m : Memory} (hm : Memory.wf m = true)
    (hij : i ≠ j) : writeGroup d i w (writeGroup d j w' m) = writeGroup d j w' (writeGroup d i w m) := by
  refine Cells.ext_read? (writeGroup_wf _ _ _ (writeGroup_wf _ _ _ hm)) (writeGroup_wf _ _ _ (writeGroup_wf _ _ _ hm))
    fun a => ?_
  simp only [read?_writeGroup]
  by_cases hi : 7 * i ≤ a ∧ a < 7 * i + 7
  · have hj : ¬ (7 * j ≤ a ∧ a < 7 * j + 7) := by omega
    simp only [if_pos hi, if_neg hj]
  · simp only [if_neg hi]

end Sys2Proof.Machine
end

section
/-! PROOFS. The statements about ENCODE (42_encode.md) and what the capacity bounds (44_capacity.md). -/

namespace Sys2Proof.Machine

-- The table is read by its laws only.
seal fileCandidates

/-- Settles O18: the samples by the law of the transform, the host's reads because every group lies in the carrier. -/
theorem encodeWritesEachSampleOfEachGroup : Obligations.EncodeWritesEachSampleOfEachGroup := by
  refine ⟨fun s hv hlen hsamples hascii => ?_, fun d i j w w' m hm hij => writeGroup_comm d w w' hm hij⟩
  have hf := s.encodeFailure_eq_none_iff.mpr ⟨hlen, hsamples, hascii, .inl hv⟩
  have htable : ensureTable s = s := ensureTable_of_tableValid hv
  refine ⟨_, exec_encode_of_none hf, ?_, fun i k hi hk => ⟨?_, ?_⟩, fun a ha => ?_⟩
  · rw [htable]
    rfl
  · rw [State.sample_succeed_encodeTransform_sampleIndex hi hk, htable]
    rfl
  · refine hostReadCell_of_lt rfl ?_
    rw [succeed_encodeTransform_ensureTable_eq]
    exact (sampleIndex_lt hi hk).trans_le hsamples
  · rw [State.sample_succeed_encodeTransform, if_neg (not_lt.2 (seven_mul_le_of_forall_ne_sampleIndex ha))]

/-- Settles O19: the LSBs of a group are the closed form of the byte's indices, the one vector that has them. -/
theorem encodePostconditionOfEachGroup : Obligations.EncodePostconditionOfEachGroup := by
  intro s hinv hready
  refine ⟨_, exec_encode_of_none (s.encodeFailure_eq_none_iff.mpr hready), rfl, fun i hi => ?_⟩
  have hlsbs := (State.groupLsbs_succeed_encodeTransform hi).trans (hinv.replacement_ensureTable i)
  obtain ⟨hclass, hsyn⟩ := (classIdx_syndrome_eq_iff s.config.h _ _ _).mpr hlsbs
  obtain ⟨h2, h4, h5, h6⟩ := direct_bits_eq_of_classIdx_eq hclass
  exact ⟨h2, h4, h5, h6, packV_injective (hsyn.trans (target_eq_packV _))⟩

/-- Settles O20: a success answers the transform, whose samples the law gives; a failure answers its status alone. -/
theorem encodeTouchesOnlyLsbsOfUsedSamples : Obligations.EncodeTouchesOnlyLsbsOfUsedSamples := by
  intro s t h
  rcases exec_encode_cases h with ⟨hf, rfl⟩ | ⟨e, -, rfl⟩
  · refine ⟨fun _ => ⟨fun a ha => ⟨?_, ?_⟩, fun a ha => ?_, ?_, fun hv => ?_⟩,
      fun hfail => absurd (succeed_status _) hfail⟩
    · rw [State.sample_succeed_encodeTransform, if_neg (not_lt.2 ha)]
    · rw [succeed_encodeTransform_ensureTable_eq, read?_encodedCarrier, if_neg (not_lt.2 ha), ensureTable_car]
    · rw [State.sample_succeed_encodeTransform, if_pos ha, lsbMerge_upper]
    · rw [succeed_encodeTransform_ensureTable_eq]
    · rw [succeed_encodeTransform_ensureTable_eq]
      obtain ⟨hvalid, htab⟩ := ensureTable_tab_of_encodeFailure_eq_none hf hv
      exact ⟨htab, hvalid.symm⟩
  · exact ⟨fun hok => absurd hok e.status_ne_ok, fun _ => rfl⟩

/-- Settles O21: `NoTable` is the failure of passed checks without a table, and a lazy ENCODE is the ENCODE that finds
the table just built. -/
theorem lazyBuildOrNoTable : Obligations.LazyBuildOrNoTable := by
  intro s
  refine ⟨fun hv => ?_, fun hv hlen hsamples hascii => ⟨fun hlazy => ?_, fun hlazy => ?_⟩, fun hbad => ?_⟩
  · cases hf : s.encodeFailure with
    | none =>
      refine ⟨_, exec_encode_of_none hf, ?_, ?_, by rw [succeed_status]; decide⟩ <;> rw [ensureTable_of_tableValid hv]
      · rfl
      · exact hv
    | some e =>
      refine ⟨_, exec_encode_of_some hf, rfl, hv, fun hst => ?_⟩
      obtain rfl := Failure.status_eq_noTable_iff.mp hst
      simp [s.encodeFailure_eq_noTable_iff, hv] at hf
  · exact exec_encode_of_some (s.encodeFailure_eq_noTable_iff.mpr ⟨⟨hlen, hsamples, hascii⟩, hv, hlazy⟩)
  · have hf := s.encodeFailure_eq_none_iff.mpr ⟨hlen, hsamples, hascii, .inr hlazy⟩
    have hbuilt : (buildTable s).encodeFailure = none :=
      (buildTable s).encodeFailure_eq_none_iff.mpr ⟨hlen, hsamples, hascii, .inl rfl⟩
    have htable : ensureTable s = buildTable s := if_neg (by simp [hv])
    refine ⟨buildTable s, succeed (encodeTransform (buildTable s)), rfl, ?_, ?_, rfl, rfl⟩
    · exact exec_encode_of_none hbuilt
    · rw [exec_encode_of_none hf, htable]
  · cases hf : s.encodeFailure with
    | none =>
      obtain ⟨hlen, hsamples, hascii, -⟩ := s.encodeFailure_eq_none_iff.mp hf
      exact absurd ⟨hlen, hsamples, hascii⟩ hbad
    | some e =>
      refine ⟨_, exec_encode_of_some hf, rfl, rfl, fun hst => ?_, e.status_ne_ok⟩
      obtain rfl := Failure.status_eq_noTable_iff.mp hst
      exact hbad (s.encodeFailure_eq_noTable_iff.mp hf).1

/-- Settles O22: the second ENCODE passes the same checks, finds the table valid, and each replacement in place. -/
theorem encodeTwiceIsEncodeOnce : Obligations.EncodeTwiceIsEncodeOnce := by
  intro s t h hok
  obtain ⟨hf, rfl⟩ := eq_succeed_of_exec_encode h hok
  obtain ⟨hlen, hsamples, hascii, -⟩ := s.encodeFailure_eq_none_iff.mp hf
  have hvalid : (succeed (encodeTransform (ensureTable s))).tableValid = true := ensureTable_tableValid s
  have hready : (succeed (encodeTransform (ensureTable s))).EncodeReady := by
    rw [succeed_encodeTransform_ensureTable_eq]
    exact ⟨hlen, hsamples, hascii, .inl rfl⟩
  rw [exec_encode_of_none ((State.encodeFailure_eq_none_iff _).mpr hready), ensureTable_of_tableValid hvalid,
    encodeTransform_succeed_encodeTransform]
  rfl

/-- Settles O24: both states pass or fail the same check; where they pass, each sample and each replacement agrees. -/
theorem encodeIsDeterminedByItsOperands : Obligations.EncodeIsDeterminedByItsOperands := by
  intro s₁ s₂ hinv₁ hinv₂ hmat hlazy hvalid hcount hlen hsample hmsg
  have hfail := State.encodeFailure_congr hlazy hvalid hcount hlen hmsg
  cases hf : s₁.encodeFailure with
  | some e => exact ⟨_, _, exec_encode_of_some hf, exec_encode_of_some (hfail ▸ hf), rfl, hsample⟩
  | none =>
    refine ⟨_, _, exec_encode_of_none hf, exec_encode_of_none (hfail ▸ hf), ?_, fun a ha => ?_⟩
    · rw [succeed_status, succeed_status]
    rw [State.sample_succeed_encodeTransform, State.sample_succeed_encodeTransform, ← hsample a ha, ← hlen]
    split_ifs with hused
    · have hbits : s₁.messageBits (a / 7) = s₂.messageBits (a / 7) := by
        rw [State.messageBits, hmsg (a / 7) (by omega), State.messageBits]
      rw [hinv₁.replacement_ensureTable, hinv₂.replacement_ensureTable, hmat, hbits]
    · rfl

/-- Settles O46: `7*L ≤ n` bounds a message that succeeds; from two samples on, as many bytes as the
capacity need more samples than there are. -/
theorem capacityIsNecessaryNotSufficient : Obligations.CapacityIsNecessaryNotSufficient := by
  refine ⟨fun s t h hok => ?_, fun n hn => ⟨by omega, by omega⟩, fun s hcount hlen hascii => ?_⟩
  · obtain ⟨hf, -⟩ := eq_succeed_of_exec_encode h hok
    obtain ⟨hlen, hsamples, -⟩ := s.encodeFailure_eq_none_iff.mp hf
    exact ⟨by omega, by omega⟩
  · refine exec_encode_of_some (s.encodeFailure_eq_overrun_iff.mpr ⟨?_, by omega⟩)
    rintro (h0 | h0 | hcap | ⟨i, hi, hbyte⟩)
    · omega
    · omega
    · omega
    · exact absurd (hascii i hi) (not_lt.2 hbyte)

end Sys2Proof.Machine
end

section
/-! PROOFS. DECBYTE: which groups decode to a given number (40_bitfield.md, R83, R84). -/

namespace Sys2Proof.Machine

theorem classIdx_eq_classIdx_iff {w w' : BitVector7} :
    classIdx w = classIdx w' ↔ w.b2 = w'.b2 ∧ w.b4 = w'.b4 ∧ w.b5 = w'.b5 ∧ w.b6 = w'.b6 := by
  refine ⟨direct_bits_eq_of_classIdx_eq, ?_⟩
  rintro ⟨h2, h4, h5, h6⟩
  rw [classIdx, h2, h4, h5, h6, classIdx]

/-- ASSEMBLE keeps the positions of the class index and puts the syndrome at the positions of the target (R83). -/
theorem assemble_eq_iff {r w : BitVector7} {t : BitVector3} :
    assemble r t = w ↔ classIdx r = classIdx w ∧ packV t = target w := by
  rw [classIdx_eq_classIdx_iff, target_eq_packV, packV_injective.eq_iff]
  obtain ⟨w0, w1, w2, w3, w4, w5, w6⟩ := w
  obtain ⟨t0, t1, t2⟩ := t
  simp only [assemble, BitVector7.mk.injEq, BitVector3.mk.injEq]
  tauto

theorem pack7_eq_iff {w : BitVector7} {x : Nat} (hx : x < 128) : pack7 w = x ↔ w = bits7 x := by
  constructor
  · rintro rfl
    exact (bits7_pack7 w).symm
  · rintro rfl
    exact pack7_bits7 x hx

/-- Under `WF(H)` exactly one group decodes to a number below 128: the table entry of its index pair (R84, R88). -/
theorem decByte_eq_iff (h : WfMatrix) {r : BitVector7} {x : Nat} (hx : x < 128) :
    decByte h.mat r = x ↔ r = closedFormVector h.mat (classIdx (bits7 x)) (target (bits7 x)) := by
  rw [decByte, pack7_eq_iff hx, assemble_eq_iff, classIdx_syndrome_eq_iff]

end Sys2Proof.Machine
end

section
/-! PROOFS. What a DECODE answers, and the bytes it recovers (43_decode.md, R101 to R103). -/

namespace Sys2Proof.Machine

variable {s t c : State} {i : Nat}

theorem exec_decode_eq (s : State) : exec .decode s = .next (finish s.decodeFailure s (decodeTransform s)) := rfl

theorem exec_decode_of_short (h : s.sampleCount < 7 * s.msgLen) :
    exec .decode s = .next { s with status := .insufficientCarrier } := by
  have hf : s.decodeFailure = some .insufficientCarrier := if_pos h
  rw [exec_decode_eq, hf, finish, raiseFailure_eq, Failure.status]

theorem exec_decode_of_ready (h : s.DecodeReady) : exec .decode s = .next (succeed (decodeTransform s)) := by
  have hf : s.decodeFailure = none := if_neg (not_lt.2 h)
  rw [exec_decode_eq, hf, finish]

/-- The state that a successful DECODE answers, with everything that stays (R101). -/
theorem succeed_decodeTransform_eq (s : State) :
    succeed (decodeTransform s) =
      { s with out := decodedOut s s.msgLen, outLen := s.msgLen, status := .ok } := rfl

theorem State.outByte_succeed_decodeTransform (s : State) (a : Nat) :
    (succeed (decodeTransform s)).outByte a = if a < s.msgLen then s.recoveredByte a else s.outByte a :=
  s.outByte_decodeTransform a

/-- The host reads the recovered bytes below the new `OUT_LEN` (R53). -/
theorem hostReadCell_out_succeed_decodeTransform (hi : i < s.msgLen) :
    hostReadCell (succeed (decodeTransform s)) .out i = .ok (s.recoveredByte i).toNat := by
  rw [hostReadCell_of_lt rfl hi, State.cell_out, State.outByte_succeed_decodeTransform, if_pos hi]

/-- A loop of DECODE that finds every recovered byte in place leaves `OUT` as it is. -/
theorem decodedOut_of_read? {n : Nat} (h : ∀ i < n, Cells.read? s.out i = some (s.recoveredByte i)) :
    decodedOut s n = s.out := by
  induction n with
  | zero => rfl
  | succ i ih =>
    rw [decodedOut, ih fun j hj => h j (by omega)]
    exact Cells.write_of_read? (h i (by omega))

/-- The transform again changes nothing: same groups, and each recovered byte in place. -/
theorem decodeTransform_succeed_decodeTransform (s : State) :
    decodeTransform (succeed (decodeTransform s)) = succeed (decodeTransform s) := by
  have hout : decodedOut (succeed (decodeTransform s)) s.msgLen = decodedOut s s.msgLen :=
    decodedOut_of_read? fun i hi => (read?_decodedOut s s.msgLen i).trans (if_pos hi)
  exact congrArg (fun m => ((succeed (decodeTransform s)).withOut m).withOutLen s.msgLen) hout

theorem State.pos_groupLsbs (s : State) (i : Nat) {k : Nat} (hk : k < 7) :
    (s.groupLsbs i).pos k = lsb (s.sample (sampleIndex i k)) := by
  interval_cases k <;> rfl

/-- Every sample has a place in a group (R45). -/
theorem sampleIndex_div_mod (a : Nat) : sampleIndex (a / 7) (a % 7) = a := Nat.div_add_mod a 7

/-- Two states have the same LSBs in the first `n` groups exactly when they have the same LSBs below sample `7*n` (R45). -/
theorem State.groupLsbs_eq_iff_lsb_eq (c t : State) (n : Nat) :
    (∀ i, i < n → c.groupLsbs i = t.groupLsbs i) ↔ ∀ a, a < 7 * n → lsb (c.sample a) = lsb (t.sample a) := by
  constructor
  · intro h a ha
    have hk : a % 7 < 7 := Nat.mod_lt a (by decide)
    rw [← sampleIndex_div_mod a, ← c.pos_groupLsbs _ hk, h (a / 7) (by omega), t.pos_groupLsbs _ hk]
  · intro h i hi
    have hlsb : ∀ k < 7, lsb (c.sample (sampleIndex i k)) = lsb (t.sample (sampleIndex i k)) :=
      fun k hk => h _ (sampleIndex_lt hi hk)
    simp [State.groupLsbs, hlsb]

/-- A recovered byte depends on `H` and the LSBs of its group only (R103, R107). -/
theorem State.recoveredByte_congr (hmat : c.config.h = t.config.h) (hlsbs : c.groupLsbs i = t.groupLsbs i) :
    c.recoveredByte i = t.recoveredByte i := by
  rw [State.recoveredByte, hmat, hlsbs, State.recoveredByte]

theorem State.recoveredByte_eq_iff {b : Byte} :
    s.recoveredByte i = b ↔ decByte s.config.h.mat (s.groupLsbs i) = b.toNat := by
  rw [← recoveredByte_toNat, BitVec.toNat_inj]

end Sys2Proof.Machine
end

section
/-! PROOFS. A group decodes to its message byte exactly when its LSBs are those that ENCODE left (43_decode.md, R105). -/

namespace Sys2Proof.Machine

variable {s t c : State} {i : Nat}

theorem recoveredByte_eq_messageByte_iff (hinv : s.Inv) (he : exec .encode s = .next t) (hok : t.status = .ok)
    (hmat : c.config.h = s.config.h) (hi : i < s.msgLen) :
    c.recoveredByte i = s.messageByte i ↔ c.groupLsbs i = t.groupLsbs i := by
  obtain ⟨hf, rfl⟩ := eq_succeed_of_exec_encode he hok
  obtain ⟨-, -, hascii, -⟩ := s.encodeFailure_eq_none_iff.mp hf
  rw [State.recoveredByte_eq_iff, hmat, decByte_eq_iff s.config.h (hascii i hi),
    State.groupLsbs_succeed_encodeTransform hi, hinv.replacement_ensureTable, State.messageBits]

/-- No operation writes a length register (R28, R29). -/
theorem exec_lengths {op : Instr} (h : exec op s = .next t) :
    t.sampleCount = s.sampleCount ∧ t.msgLen = s.msgLen := by
  rcases exec_next_cases h with ⟨-, rfl⟩ | ⟨-, -, rfl⟩ | ⟨-, -, rfl⟩ | ⟨-, rfl⟩ | ⟨e, -, rfl⟩ <;> exact ⟨rfl, rfl⟩

/-- A DECODE with the lengths of an ENCODE that succeeded passes its check (R94, R102). -/
theorem decodeReady_of_exec_encode (he : exec .encode s = .next t) (hok : t.status = .ok)
    (hcount : c.sampleCount = s.sampleCount) (hlen : c.msgLen = s.msgLen) : c.DecodeReady := by
  obtain ⟨hf, -⟩ := eq_succeed_of_exec_encode he hok
  obtain ⟨-, hsamples, -⟩ := s.encodeFailure_eq_none_iff.mp hf
  rwa [State.DecodeReady, hcount, hlen]

end Sys2Proof.Machine
end

section
/-! PROOFS. The statements about DECODE (43_decode.md). -/

namespace Sys2Proof.Machine

/-- Settles O27: byte `i` of `OUT` is the byte recovered from group `i`, and a second DECODE finds every byte in place. -/
theorem decodeRecoversEachGroup : Obligations.DecodeRecoversEachGroup := by
  intro s hready
  refine ⟨_, exec_decode_of_ready hready, succeed_decodeTransform_eq s, fun i hi => ?_, fun a ha => ⟨?_, ?_⟩, ?_⟩
  · have hbyte : ((succeed (decodeTransform s)).outByte i).toNat = decByte s.config.h.mat (s.groupLsbs i) := by
      rw [State.outByte_succeed_decodeTransform, if_pos hi, recoveredByte_toNat]
    refine ⟨hbyte, hbyte.trans_lt (pack7_lt _), ?_⟩
    rw [hostReadCell_out_succeed_decodeTransform hi, recoveredByte_toNat]
  · rw [State.outByte_succeed_decodeTransform, if_neg (not_lt.2 ha)]
  · rw [succeed_decodeTransform_eq, read?_decodedOut, if_neg (not_lt.2 ha)]
  · have hready' : (succeed (decodeTransform s)).DecodeReady := hready
    rw [exec_decode_of_ready hready', decodeTransform_succeed_decodeTransform]
    rfl

/-- Settles O30: both states pass or fail the check together, and each group has the same LSBs in both. -/
theorem decodeDependsOnMatrixLengthsAndLsbsOnly : Obligations.DecodeDependsOnMatrixLengthsAndLsbsOnly := by
  intro s₁ s₂ hmat hcount hlen hlsb
  rcases lt_or_ge s₁.sampleCount (7 * s₁.msgLen) with hshort | hready
  · exact ⟨_, _, exec_decode_of_short hshort, exec_decode_of_short (hcount ▸ hlen ▸ hshort), rfl,
      fun hok => absurd hok Failure.insufficientCarrier.status_ne_ok⟩
  · have hready₂ : s₂.DecodeReady := by rwa [State.DecodeReady, ← hcount, ← hlen]
    refine ⟨_, _, exec_decode_of_ready hready, exec_decode_of_ready hready₂, rfl,
      fun _ => ⟨hlen, fun i (hi : i < s₁.msgLen) => ?_⟩⟩
    have hgroup := (State.groupLsbs_eq_iff_lsb_eq s₁ s₂ s₁.msgLen).mpr hlsb i hi
    rw [State.outByte_succeed_decodeTransform, State.outByte_succeed_decodeTransform, if_pos hi,
      if_pos (hlen ▸ hi), State.recoveredByte_congr hmat hgroup]

/-- Settles O31: the LSBs of every group are those that ENCODE left. -/
theorem decodeInvertsEncode : Obligations.DecodeInvertsEncode := by
  intro s t hinv he hok
  obtain ⟨hcount, hlen⟩ := exec_lengths he
  have hmat : t.config.h = s.config.h := congrArg Config.h (exec_config he)
  refine ⟨_, exec_decode_of_ready (decodeReady_of_exec_encode he hok hcount hlen), rfl, hlen, fun i hi => ?_⟩
  have hbyte := (recoveredByte_eq_messageByte_iff hinv he hok hmat hi).mpr rfl
  have hi' : i < t.msgLen := hlen ▸ hi
  rw [State.outByte_succeed_decodeTransform, if_pos hi', hostReadCell_out_succeed_decodeTransform hi', hbyte]
  exact ⟨rfl, rfl⟩

/-- Settles O32, group by group: a byte comes back exactly when the 7 LSBs of its group are those that ENCODE left. -/
theorem roundTripFailsExactlyWhenAnLsbChanged : Obligations.RoundTripFailsExactlyWhenAnLsbChanged := by
  intro s t c r hinv he hok hmat hcount hlen hd
  have hready := decodeReady_of_exec_encode he hok hcount hlen
  obtain rfl := Host.Outcome.next.inj ((exec_decode_of_ready hready).symm.trans hd)
  refine ⟨rfl, ?_⟩
  rw [← State.groupLsbs_eq_iff_lsb_eq]
  refine forall₂_congr fun i hi => ?_
  rw [State.outByte_succeed_decodeTransform, if_pos (hlen.symm ▸ hi),
    recoveredByte_eq_messageByte_iff hinv he hok hmat hi]

/-- Settles O28: the check of DECODE reads the two lengths only. -/
theorem decodeFailsExactlyOnAShortCarrier : Obligations.DecodeFailsExactlyOnAShortCarrier := fun _ =>
  ⟨exec_decode_of_short, fun hready => ⟨_, exec_decode_of_ready hready, succeed_status _⟩⟩

/-- Settles O29: no carrier is too short for no byte, and the loop of no byte leaves `OUT`. -/
theorem zeroLengthDecodeSucceedsEmpty : Obligations.ZeroLengthDecodeSucceedsEmpty := by
  intro s hlen
  have hready : s.DecodeReady := by rw [State.DecodeReady, hlen]; omega
  rw [exec_decode_of_ready hready, succeed_decodeTransform_eq, hlen, decodedOut]

end Sys2Proof.Machine
end

section
/-! PROOFS. The statement about CAPACITY (44_capacity.md). -/

namespace Sys2Proof.Machine

/-- CAPACITY has no check that could fail, and its successor differs from `s` in the two registers of R108 only. -/
theorem exec_capacity_eq (s : State) :
    exec .capacity s = .next { s with result := capacityOf s.sampleCount, status := .ok } := rfl

/-- Settles O7: the bound is at most `SAMPLE_COUNT`, so it fits wherever `SAMPLE_COUNT` does. -/
theorem capacityWritesTheBound : Obligations.CapacityWritesTheBound := fun s =>
  ⟨exec_capacity_eq s, fun hfits => Config.fits_of_le hfits (capacityOf_le s.sampleCount)⟩

end Sys2Proof.Machine
end

section
/-! PROOFS. The failures: which operation raises each, and when (60_exceptions.md, R111 to R118). -/

namespace Sys2Proof.Machine

variable {i : Instr} {s t : State} {e : Failure}

/-- `STATUS` tells the four failures apart (R69, R111). -/
theorem Failure.status_injective : Function.Injective Failure.status := by
  intro e e' h
  cases e <;> cases e' <;> simp [Failure.status] at h ⊢

theorem State.encodeFailure_eq_invalidInput_iff (s : State) :
    s.encodeFailure = some .invalidInput ↔ s.InvalidInput := by
  rw [← s.inputInvalid_iff]
  rcases s.encodeFailure_cases with ⟨hi, hf⟩ | ⟨hi, -, hf⟩ | ⟨hi, -, -, -, hf⟩ | ⟨hi, -, -, hf⟩ <;> simp [hf, hi]

theorem State.encodeFailure_ne_insufficientCarrier (s : State) : s.encodeFailure ≠ some .insufficientCarrier := by
  rcases s.encodeFailure_cases with ⟨-, hf⟩ | ⟨-, -, hf⟩ | ⟨-, -, -, -, hf⟩ | ⟨-, -, -, hf⟩ <;> simp [hf]

theorem State.decodeFailure_eq_some_iff (s : State) :
    s.decodeFailure = some e ↔ e = .insufficientCarrier ∧ s.sampleCount < 7 * s.msgLen := by
  rcases s.decodeFailure_cases with ⟨hlt, hf⟩ | ⟨hle, hf⟩
  · simp [hf, hlt, eq_comm]
  · simp [hf, hle]

/-- Every operation completes (R136). -/
theorem exists_exec_eq_next (i : Instr) (s : State) : ∃ t, exec i s = .next t := by
  cases i <;> exact ⟨_, rfl⟩

/-- An operation ends with `OK`, or in the state it began in but for the code of a failure (R116, R117). -/
theorem exec_ok_or_failure (h : exec i s = .next t) :
    t.status = .ok ∨ ∃ e : Failure, t = { s with status := e.status } := by
  rcases exec_next_cases h with ⟨-, rfl⟩ | ⟨-, -, rfl⟩ | ⟨-, -, rfl⟩ | ⟨-, rfl⟩ | ⟨e, -, ht⟩
  · exact .inl rfl
  · exact .inl rfl
  · exact .inl rfl
  · exact .inl rfl
  · exact .inr ⟨e, ht⟩

/-- A failure stands in `STATUS` after an operation exactly when the check of ENCODE or of DECODE found it (R111). -/
theorem exec_status_eq_failure_iff (h : exec i s = .next t) (e : Failure) :
    t.status = e.status ↔
      i = .encode ∧ s.encodeFailure = some e ∨ i = .decode ∧ s.decodeFailure = some e := by
  have hok : Status.ok ≠ e.status := e.status_ne_ok.symm
  rcases exec_next_cases h with ⟨rfl, rfl⟩ | ⟨rfl, hf, rfl⟩ | ⟨rfl, hf, rfl⟩ | ⟨rfl, rfl⟩ |
    ⟨e', ⟨rfl, hf⟩ | ⟨rfl, hf⟩, rfl⟩
  · simp [hok]
  · simp [hok, hf]
  · simp [hok, hf]
  · simp [hok]
  · simp [hf, Failure.status_injective.eq_iff]
  · simp [hf, Failure.status_injective.eq_iff]

/-- Settles O25: each failure is the one that a check found, and the checks find it under the conditions of R112 to R115. -/
theorem failuresAreRaisedExactlyUnderTheirConditions : Obligations.FailuresAreRaisedExactlyUnderTheirConditions := by
  intro i s t h
  have hraised := exec_status_eq_failure_iff h
  refine ⟨(hraised .invalidInput).trans ?_, (hraised .insufficientCarrier).trans ?_, (hraised .noTable).trans ?_,
    (hraised .overrun).trans ?_, fun hne => ?_⟩
  · simp [s.encodeFailure_eq_invalidInput_iff, s.decodeFailure_eq_some_iff]
  · simp [s.encodeFailure_ne_insufficientCarrier, s.decodeFailure_eq_some_iff]
  · simp [s.encodeFailure_eq_noTable_iff, ← s.not_invalidInput_and_samples_iff, s.decodeFailure_eq_some_iff, and_assoc]
  · simp [s.encodeFailure_eq_overrun_iff, s.decodeFailure_eq_some_iff]
  · rcases exec_ok_or_failure h with hok | ⟨e, rfl⟩
    · exact absurd hok hne
    · rfl

/-- Settles O26: there is a next state, and it is one of the two that an operation ends in. -/
theorem failedOperationChangesOnlyStatus : Obligations.FailedOperationChangesOnlyStatus := by
  intro i s
  obtain ⟨t, h⟩ := exists_exec_eq_next i s
  exact ⟨t, h, exec_ok_or_failure h⟩

end Sys2Proof.Machine
end

section
/-! PROOFS. Reset as the host applies it (70_reset_and_hazards.md, R125). -/

namespace Sys2Proof.Machine

variable {s : State} {rest : List HostAction}

/-- The whole state after reset: the parameters and the queue are carried over, all else starts afresh (R36, R125). -/
theorem step_reset (hp : s.pending = .reset :: rest) :
    step s = .next (State.afterReset s.config (s.draw + 1) rest) := step_of_hostEffect hp rfl

/-- Reset leaves no cell of a memory with a specified content (R36, U9). -/
theorem State.afterReset_read?_eq_none (c : Config) (n : Nat) (acts : List HostAction) (a : Nat) :
    Cells.read? (State.afterReset c n acts).tab a = none ∧ Cells.read? (State.afterReset c n acts).car a = none ∧
      Cells.read? (State.afterReset c n acts).msg a = none ∧
      Cells.read? (State.afterReset c n acts).out a = none := by
  simp

/-- Settles O5: the step answers the state after reset, whose fields are the values of R36. -/
theorem resetActionRestoresTheResetValues : Obligations.ResetActionRestoresTheResetValues := by
  intro s rest hp
  exact ⟨_, step_reset hp, State.afterReset_tableValid .., State.afterReset_status ..,
    State.afterReset_sampleCount .., State.afterReset_msgLen .., State.afterReset_result ..,
    State.afterReset_outLen .., State.afterReset_config .., State.afterReset_pending ..,
    State.afterReset_read?_eq_none _ _ _⟩

end Sys2Proof.Machine
end

section
/-! PROOFS. The laws of packing, and DECBYTE as a bijection (40_bitfield.md, R74 to R84). -/

namespace Sys2Proof.Machine

/-- Every class index has a vector: the one with the bits of `UBITS` and zero at the target's positions (R77). -/
theorem exists_classIdx_eq (u : ClassIndex) : ∃ r, classIdx r = u :=
  ⟨⟨false, false, u.getLsbD 3, false, u.getLsbD 2, u.getLsbD 1, u.getLsbD 0⟩, (classIdx_eq_iff _ u).mpr rfl⟩

/-- Class index and target split a vector without loss: ASSEMBLE puts together the one vector that has both (R76, R78). -/
theorem existsUnique_classIdx_target (u : ClassIndex) (v : TargetValue) :
    ∃! w : BitVector7, classIdx w = u ∧ target w = v := by
  obtain ⟨r, rfl⟩ := exists_classIdx_eq u
  obtain ⟨hclass, htarget⟩ := assemble_eq_iff.mp (rfl : assemble r (vbits v) = _)
  rw [packV_vbits] at htarget
  refine ⟨assemble r (vbits v), ⟨hclass.symm, htarget.symm⟩, fun w ⟨hw, hv⟩ => ?_⟩
  exact (assemble_eq_iff.mpr ⟨hw.symm, (packV_vbits v).trans hv.symm⟩).symm

theorem decByte_lt (m : ParityMatrix) (r : BitVector7) : decByte m r < 128 := pack7_lt _

/-- The decoded number has the class index of its group, and the syndrome as its target (R84). -/
theorem classIdx_target_bits7_decByte (m : ParityMatrix) (r : BitVector7) :
    classIdx (bits7 (decByte m r)) = classIdx r ∧ target (bits7 (decByte m r)) = packV (syndrome m r) := by
  have hbits : assemble r (syndrome m r) = bits7 (decByte m r) := (bits7_pack7 _).symm
  obtain ⟨hclass, htarget⟩ := assemble_eq_iff.mp hbits
  exact ⟨hclass.symm, htarget.symm⟩

/-- Groups that decode to one number are both the closed form of its index pair (R84, R88). -/
theorem decByte_injective (h : WfMatrix) : Function.Injective (decByte h.mat) := by
  intro r r' hnum
  have hlt := decByte_lt h.mat r'
  exact ((decByte_eq_iff h hlt).mp hnum).trans ((decByte_eq_iff h hlt).mp rfl).symm

theorem exists_decByte_eq (h : WfMatrix) {x : Nat} (hx : x < 128) : ∃ r, decByte h.mat r = x :=
  ⟨_, (decByte_eq_iff h hx).mpr rfl⟩

/-- Without `WF(H)` zero and a vector of the kernel decode to the same number (R84). -/
theorem wf_of_decByte_injective {m : ParityMatrix} (hinj : Function.Injective (decByte m)) : m.wf = true := by
  by_contra hm
  obtain ⟨x, y, z, hne, hsyn⟩ := exists_syndrome_eq_zero_of_not_wf (Bool.eq_false_of_not_eq_true hm)
  refine hne (hinj ?_)
  rw [decByte, hsyn, decByte, syndrome_bits7_zero]
  rfl

/-- Settles O14: the three packing laws hold for every matrix; DECBYTE is inverted by the closed form under `WF(H)`, and
loses a vector of the kernel without it. -/
theorem bitFieldLawsAndDecByteBijection : Obligations.BitFieldLawsAndDecByteBijection := by
  refine ⟨pack7_bits7, bits7_pack7, existsUnique_classIdx_target,
    fun m r => ⟨decByte_lt m r, classIdx_target_bits7_decByte m r⟩, fun m => ⟨?_, fun hm => ?_⟩⟩
  · rintro ⟨hinj, -⟩
    exact wf_of_decByte_injective hinj
  · exact ⟨decByte_injective ⟨m, hm⟩, fun _ hx => exists_decByte_eq ⟨m, hm⟩ hx⟩

end Sys2Proof.Machine
end

section
/-! PROOFS. The entries of a valid table (41_table_build.md, R91). -/

namespace Sys2Proof.Machine

variable {s : State} {u : ClassIndex} {v : TargetValue}

theorem State.pack7_tableVector (s : State) (u : ClassIndex) (v : TargetValue) :
    pack7 (s.tableVector u v) = (s.entry (tableIndex u v)).toNat :=
  pack7_bits7 _ (s.entry (tableIndex u v)).isLt

/-- In a valid table a vector stands in the cell of its index pair and in no other (R87). -/
theorem State.Inv.tableVector_eq_iff (h : s.Inv) (hv : s.tableValid = true) {w : BitVector7} :
    s.tableVector u v = w ↔ classIdx w = u ∧ packV (syndrome s.config.h.mat w) = v := by
  rw [h.tableVector_eq hv, classIdx_syndrome_eq_iff, eq_comm]

/-- An integer below 128 is the entry of its own index pair and of no other (R91). -/
theorem State.Inv.toNat_entry_eq_iff (h : s.Inv) (hv : s.tableValid = true) {x : Nat} (hx : x < 128) :
    (s.entry (tableIndex u v)).toNat = x ↔
      classIdx (bits7 x) = u ∧ packV (syndrome s.config.h.mat (bits7 x)) = v := by
  rw [← State.pack7_tableVector, pack7_eq_iff hx, h.tableVector_eq_iff hv]

theorem State.Inv.existsUnique_entry_eq (h : s.Inv) (hv : s.tableValid = true) {x : Nat} (hx : x < 128) :
    ∃! p : ClassIndex × TargetValue, (s.entry (tableIndex p.1 p.2)).toNat = x := by
  refine ⟨(classIdx (bits7 x), packV (syndrome s.config.h.mat (bits7 x))),
    (h.toNat_entry_eq_iff hv hx).mpr ⟨rfl, rfl⟩, fun p hp => ?_⟩
  obtain ⟨hclass, hsyn⟩ := (h.toNat_entry_eq_iff hv hx).mp hp
  exact Prod.ext hclass.symm hsyn.symm

/-- Zero has the index pair `(0, 0)` under every matrix (R91). -/
theorem State.Inv.entry_zero (h : s.Inv) (hv : s.tableValid = true) : s.entry 0 = 0#7 := by
  have hpair : classIdx (bits7 0) = 0 ∧ packV (syndrome s.config.h.mat (bits7 0)) = 0 :=
    ⟨(classIdx_eq_iff _ _).mpr rfl, by rw [syndrome_bits7_zero]; rfl⟩
  exact BitVec.eq_of_toNat_eq ((h.toNat_entry_eq_iff hv (by decide)).mpr hpair)

/-- Settles O13: an entry has the index pair it is filed under, so it decodes to the byte with that class index and
target, and no integer is filed twice. -/
theorem builtTableInvertsTheMessageSplit : Obligations.BuiltTableInvertsTheMessageSplit := by
  intro s hinv hvalid
  refine ⟨fun u v => ?_, fun x hx => hinv.existsUnique_entry_eq hvalid hx, hinv.entry_zero hvalid⟩
  obtain ⟨hclass, hsyn⟩ := (hinv.tableVector_eq_iff hvalid).mp (rfl : s.tableVector u v = _)
  have hbits := (classIdx_eq_iff _ u).mp hclass
  simp only [ubits, Prod.mk.injEq] at hbits
  obtain ⟨h2, h4, h5, h6⟩ := hbits
  obtain ⟨hdecClass, hdecTarget⟩ := classIdx_target_bits7_decByte s.config.h.mat (s.tableVector u v)
  exact ⟨hclass, h2, h4, h5, h6, hdecClass.trans hclass, hdecTarget.trans hsyn⟩

end Sys2Proof.Machine
end

section
/-! PROOFS. When an ENCODE succeeds, and what its LSBs depend on (42_encode.md, R94, R100). -/

namespace Sys2Proof.Machine

/-- Settles O17: an ENCODE ends with `OK` exactly when no check finds a failure. -/
theorem encodeSucceedsExactlyWhenReady : Obligations.EncodeSucceedsExactlyWhenReady := by
  intro s
  rw [← s.encodeFailure_eq_none_iff]
  cases hf : s.encodeFailure with
  | none => exact ⟨_, exec_encode_of_none hf, iff_of_true (succeed_status _) rfl⟩
  | some e => exact ⟨_, exec_encode_of_some hf, iff_of_false e.status_ne_ok (Option.some_ne_none e)⟩

/-- The LSBs that a successful ENCODE leaves in a group: the closed form of the byte's index pair (R97). -/
theorem State.Inv.groupLsbs_of_exec_encode {s t : State} {i : Nat} (h : s.Inv) (he : exec .encode s = .next t)
    (hok : t.status = .ok) (hi : i < s.msgLen) :
    t.groupLsbs i =
      closedFormVector s.config.h.mat (classIdx (s.messageBits i)) (target (s.messageBits i)) := by
  obtain ⟨-, rfl⟩ := eq_succeed_of_exec_encode he hok
  rw [State.groupLsbs_succeed_encodeTransform hi, h.replacement_ensureTable]

/-- Settles O23: the LSBs are a closed form in which only `H` and the message byte stand. -/
theorem encodedLsbsDependOnMessageAndMatrixOnly : Obligations.EncodedLsbsDependOnMessageAndMatrixOnly := by
  intro s₁ s₂ t₁ t₂ hinv₁ hinv₂ hmat he₁ hok₁ he₂ hok₂ i hi₁ hi₂ hmsg
  have hbits : s₁.messageBits i = s₂.messageBits i := congrArg (fun b : Byte => bits7 b.toNat) hmsg
  rw [hinv₁.groupLsbs_of_exec_encode he₁ hok₁ hi₁, hinv₂.groupLsbs_of_exec_encode he₂ hok₂ hi₂, hmat, hbits]

end Sys2Proof.Machine
end

section
/-! PROOFS. The operations straight after reset (70_reset_and_hazards.md, R126). -/

namespace Sys2Proof.Machine

-- The table is named, not run.
seal fileCandidates

/-- No sample bounds no message byte (R108). -/
theorem capacityOf_zero : capacityOf 0 = 0 := rfl

/-- Settles O6: BUILD files the table into an empty `TAB`; the lengths are 0, which is CAPACITY's result, the whole of a
DECODE, and invalid for an ENCODE. -/
theorem operationsStraightAfterReset : Obligations.OperationsStraightAfterReset := by
  intro c n acts
  refine ⟨congrArg Host.Outcome.next (buildTable_eq _), ?_, ?_, ?_⟩
  · rw [exec_capacity_eq, State.afterReset_sampleCount, capacityOf_zero]
    rfl
  · exact zeroLengthDecodeSucceedsEmpty _ (State.afterReset_msgLen ..)
  · exact exec_encode_of_some ((State.encodeFailure_eq_invalidInput_iff _).mpr (.inl (State.afterReset_sampleCount ..)))

end Sys2Proof.Machine
end
